-- ==== Sys2Proof/Word.lean ====
section
/-! DEFINITION. The word types of DES-CORE and the one-byte command word of format C.

A Lean `BitVec n` holds a spec BitVector of length n. The spec numbers its bits from 0 at the MOST significant
end (rules R10 and R11), so the spec's `v[i]` is `v.getMsbD i`, `val(v)` is `v.toNat` and `u ++ v` is `u ++ v`.
Only the command word numbers its bits from the least significant end (rules R12 and R70). -/
namespace Sys2Proof

/-- A byte: an integer in [0,255] (rule R9). -/
abbrev Byte := BitVec 8

/-- A ByteSeq: a finite ordered sequence of bytes (rule R9). -/
abbrev ByteSeq := List Byte

/-- A 64-bit block or key vector (rules R9, R27). -/
abbrev Block := BitVec 64

/-- A 32-bit half of a block (rule R30). -/
abbrev Half := BitVec 32

/-- A 28-bit half of the key-schedule state (rule R28). -/
abbrev KeyHalf := BitVec 28

/-- A 48-bit round subkey (rule R29). -/
abbrev Subkey := BitVec 48

/-- The ordered list of exactly sixteen subkeys, `SK[0..15]` (rules R7 and R29). -/
abbrev Subkeys := Vector Subkey 16

/-- Format C, the one command format (rule R70): bits 7:4 `zero`, bits 3:1 `fn`, bit 0 `dir`. -/
structure CmdWord where
  zero : BitVec 4
  fn   : BitVec 3
  dir  : BitVec 1
  deriving DecidableEq, Repr

end Sys2Proof
end

