-- ==== Sys2Proof/Machine/Bits.lean ====
section
/-! DEFINITION. BitVectors as ordered sequences of bits, index 0 first and most significant (rules R9 to R13).
These are the only places where a sequence of bits is put together or cut up. -/
namespace Sys2Proof.Machine

/-- The bits of a BitVector in index order, `v[0], v[1], …` (rule R10). -/
def bitsOf {n : Nat} (v : BitVec n) : List Bool := (List.range n).map v.getMsbD

/-- The BitVector of length `n` whose bits in index order are `bs`; every caller gives exactly `n` bits. -/
def ofBits (n : Nat) (bs : List Bool) : BitVec n := (BitVec.ofBoolListBE bs).setWidth n

/-- The subsequence `v[a..a+n-1]` (rule R10); every caller keeps `a + n ≤ len(v)`. -/
def subvec {m : Nat} (v : BitVec m) (a n : Nat) : BitVec n := v.extractLsb' (m - (a + n)) n

end Sys2Proof.Machine
end

