-- ==== Sys2Proof/Machine/State.lean ====
section
/-! DEFINITION. The state of DES-CORE (spec file 10_state.md) and what stands around it: directions, error kinds,
the host's moves.

State holds the interface state of rule R20 (a). Each buffer is a list of exactly its length (U2 of
93_implementation_defined.md), so KLEN, ILEN and OLEN are read off the lists. The working state of rule R20 (b) is
created by a command and dead at its end, and rule R35 says "a model carries no working state between commands at
all": its registers are the structure `Working` of Machine/Sequencer.lean. The constant tables are definitions
(rule R33). -/
namespace Sys2Proof.Machine

/-- The two directions of `transform` (rule R18): an input of a step, never state. -/
inductive Direction where
  | encrypt
  | decrypt
  deriving DecidableEq, Repr

/-- The error kinds (rule R185). -/
inductive ErrorKind where
  /-- Code 1, "key length ≠ 8". -/
  | invalidKeyLength
  /-- Code 2, "a key element outside [0,255]". -/
  | invalidKeyValue
  /-- Code 3, "byte sequence length for decryption not a multiple of 8". -/
  | malformedCiphertext
  /-- Code 4, a bit count not divisible by 8 at `bitsToBytes`; no command ends with it (rule R187). -/
  | malformedBitLength
  /-- Code 5, the byte written to CMD is no command. -/
  | illegalCommand
  /-- Code 6, ILEN ≠ 8 at ENCB or DECB. -/
  | malformedBlock
  deriving DecidableEq, Repr

/-- What the host can read (rules R37 and R69). CMD cannot be read (rule R24), and no read reaches the working
state (rule R36). -/
inductive HostRead where
  | klen
  | key (j : Nat)
  | ilen
  | ibyte (j : Nat)
  | olen
  | obyte (j : Nat)
  | err
  deriving DecidableEq, Repr

/-- The host's moves, complete (rules R69 and R81). -/
inductive HostMove where
  /-- `LOADKEY`: replace KLEN and every element of KEYBUF together. -/
  | loadKey (elems : List Int)
  /-- `LOADIN`: replace ILEN and every byte of IBUF together. -/
  | loadIn (bytes : ByteSeq)
  /-- `LOADIN OBUF`: the host reads OBUF and writes it back to IBUF. -/
  | loadInObuf
  /-- A host read, with no effect. -/
  | read (r : HostRead)
  /-- A host write of a byte to CMD: issue a command and run it to its end (rule R24). -/
  | issue (c : Byte)
  /-- Apply reset (rule R210). -/
  | reset
  deriving DecidableEq, Repr

/-- The reasons a step can fault: NONE. "The step is total: every byte c and every buffer content gives exactly
one next state" (rule R76), and errors are values in ERR (rule R190). Nothing raises a fault, so none is safe or
unsafe. -/
inductive Fault where
  deriving DecidableEq, Repr

/-- The reasons a step can be refused. -/
inductive Refusal where
  /-- An instruction without a meaning yet, raised by an arm of `exec` only; safe. No arm raises it: every
  command has its meaning. -/
  | notModelled (mnemonic : String)
  deriving DecidableEq, Repr

/-- The state between two host moves. -/
structure State where
  /-- KEYBUF[0..KLEN−1], signed integers (rule R21); KLEN is the list's length. -/
  keybuf : List Int
  /-- IBUF[0..ILEN−1] (rule R22); ILEN is the list's length. -/
  ibuf : List Byte
  /-- OBUF[0..OLEN−1], the readable bytes (rule R23); OLEN is the list's length. -/
  obuf : List Byte
  /-- ERR, the 8-bit result code (rule R25). -/
  err : BitVec 8
  /-- The MODEL's own field, no register of the hardware: the host's moves still to come, the next one first.
  The core never acts on its own (rule R69), so a step is the host's next move. -/
  moves : List HostMove
  deriving DecidableEq, Repr

/-- The state right after reset (rule R39): empty buffers, ERR = 0. No host move is pending. -/
def State.reset : State :=
  { keybuf := [], ibuf := [], obuf := [], err := 0, moves := [] }

/-- KLEN, the number of key elements present (rule R21). -/
def State.klen (s : State) : Nat := s.keybuf.length

/-- ILEN, the number of input bytes present (rule R22). -/
def State.ilen (s : State) : Nat := s.ibuf.length

/-- OLEN, the number of readable output bytes (rule R23). -/
def State.olen (s : State) : Nat := s.obuf.length

end Sys2Proof.Machine
end

