-- ==== Sys2Proof/Machine/BitConverter.lean ====
section
/-! DEFINITION. The BitConverter unit (spec file 40_bitconverter.md). A text is a ByteSeq of ordinals, `ord` and
`chr` being the identity (rule R94). -/
namespace Sys2Proof.Machine

/-- The 8-bit vector of a byte, most significant bit first: bit j is `(byte / 2^(7-j)) % 2` (rules R50 and R90). -/
def byteBits (b : Byte) : List Bool :=
  (List.range 8).map fun j => b.toNat / 2 ^ (7 - j) % 2 == 1

/-- `bytesToBits` (rule R90): the bytes' 8-bit vectors in index order (rule R51). -/
def bytesToBits (bytes : ByteSeq) : BitVec (8 * bytes.length) :=
  ofBits _ (bytes.flatMap byteBits)

/-- `bitsToBytes` (rule R91): byte k is `val(bits[8k..8k+7])`; a bit count not divisible by 8 raises
`MalformedBitLength` before any byte is produced. -/
def bitsToBytes {m : Nat} (bits : BitVec m) : Except ErrorKind ByteSeq :=
  if m % 8 ≠ 0 then .error .malformedBitLength
  else .ok ((List.range (m / 8)).map fun k => subvec bits (8 * k) 8)

/-- The padding length `8 - (n % 8)` (rules R92 and R95). -/
def padLength (n : Nat) : Nat := 8 - n % 8

/-- `textToBytes` (rule R92): each character's ordinal, then 1 to 8 zero bytes. -/
def textToBytes (text : ByteSeq) : ByteSeq :=
  text ++ List.replicate (padLength text.length) 0

/-- `bytesToText` (rule R93): drop EVERY zero byte, wherever it stands; the others keep their order. -/
def bytesToText (bytes : ByteSeq) : ByteSeq := bytes.filter (· ≠ 0)

end Sys2Proof.Machine
end

