-- ==== Sys2Proof/Machine/Permutation.lean ====
section
/-! DEFINITION. The PermutationEngine unit and its six constant tables (spec file 41_permutation.md). -/
namespace Sys2Proof.Machine

/-- A permutation table that maps an `m`-bit vector to an `n`-bit vector: a "fixed ordered sequence of 1-indexed
source-bit positions" (rule R15), every entry in 1..m (rule R102), so that an entry out of range cannot occur (U12). -/
structure PermTable (m n : Nat) where
  entries : Vector Nat n
  inRange : ∀ p ∈ entries.toList, 1 ≤ p ∧ p ≤ m

/-- `permuteBits` (rule R100): output bit i is the input bit at `table[i]-1`; the output length is the table's. -/
def permuteBits {m n : Nat} (bits : BitVec m) (table : PermTable m n) : BitVec n :=
  ofBits n (table.entries.toList.map fun p => bits.getMsbD (p - 1))

/-- `permuteBytes` (rule R101): "convert to bits, permute, convert back". No command uses it. -/
def permuteBytes {n : Nat} (bytes : ByteSeq) (table : PermTable (8 * bytes.length) n) :
    Except ErrorKind ByteSeq :=
  bitsToBytes (permuteBits (bytesToBits bytes) table)

/-- The Initial Permutation (rule R103); the entries are the ones spec/ supplies (assumption 9). -/
def IP : PermTable 64 64 where
  entries :=
    #v[58, 50, 42, 34, 26, 18, 10,  2,
       60, 52, 44, 36, 28, 20, 12,  4,
       62, 54, 46, 38, 30, 22, 14,  6,
       64, 56, 48, 40, 32, 24, 16,  8,
       57, 49, 41, 33, 25, 17,  9,  1,
       59, 51, 43, 35, 27, 19, 11,  3,
       61, 53, 45, 37, 29, 21, 13,  5,
       63, 55, 47, 39, 31, 23, 15,  7]
  inRange := by decide

/-- The Final Permutation, "the structural inverse of the Initial Permutation" (rule R104); the entries are the ones spec/ supplies (assumption 9). -/
def FP : PermTable 64 64 where
  entries :=
    #v[40,  8, 48, 16, 56, 24, 64, 32,
       39,  7, 47, 15, 55, 23, 63, 31,
       38,  6, 46, 14, 54, 22, 62, 30,
       37,  5, 45, 13, 53, 21, 61, 29,
       36,  4, 44, 12, 52, 20, 60, 28,
       35,  3, 43, 11, 51, 19, 59, 27,
       34,  2, 42, 10, 50, 18, 58, 26,
       33,  1, 41,  9, 49, 17, 57, 25]
  inRange := by decide

/-- The expansion table (rule R105); the entries are the ones spec/ supplies (assumption 9). -/
def E : PermTable 32 48 where
  entries :=
    #v[32,  1,  2,  3,  4,  5,
        4,  5,  6,  7,  8,  9,
        8,  9, 10, 11, 12, 13,
       12, 13, 14, 15, 16, 17,
       16, 17, 18, 19, 20, 21,
       20, 21, 22, 23, 24, 25,
       24, 25, 26, 27, 28, 29,
       28, 29, 30, 31, 32,  1]
  inRange := by decide

/-- The P-box (rule R106); the entries are the ones spec/ supplies (assumption 9). -/
def P : PermTable 32 32 where
  entries :=
    #v[16,  7, 20, 21, 29, 12, 28, 17,
        1, 15, 23, 26,  5, 18, 31, 10,
        2,  8, 24, 14, 32, 27,  3,  9,
       19, 13, 30,  6, 22, 11,  4, 25]
  inRange := by decide

/-- The table PC1, which "drops 8 parity bits" (rule R107); the entries are the ones spec/ supplies (assumption 9). -/
def PC1 : PermTable 64 56 where
  entries :=
    #v[57, 49, 41, 33, 25, 17,  9,
        1, 58, 50, 42, 34, 26, 18,
       10,  2, 59, 51, 43, 35, 27,
       19, 11,  3, 60, 52, 44, 36,
       63, 55, 47, 39, 31, 23, 15,
        7, 62, 54, 46, 38, 30, 22,
       14,  6, 61, 53, 45, 37, 29,
       21, 13,  5, 28, 20, 12,  4]
  inRange := by decide

/-- The table PC2 (rule R108); the entries are the ones spec/ supplies (assumption 9). -/
def PC2 : PermTable 56 48 where
  entries :=
    #v[14, 17, 11, 24,  1,  5,
        3, 28, 15,  6, 21, 10,
       23, 19, 12,  4, 26,  8,
       16,  7, 27, 20, 13,  2,
       41, 52, 31, 37, 47, 55,
       30, 40, 51, 45, 33, 48,
       44, 49, 39, 56, 34, 53,
       46, 42, 50, 36, 29, 32]
  inRange := by decide

/-! ### The structural facts of rule R109, proved in Laws/Tables.lean -/

/-- How many entries of the table are position `p`. -/
def PermTable.timesNamed {m n : Nat} (T : PermTable m n) (p : Nat) : Nat := T.entries.toList.count p

/-- The table is a bijection of 1..n: it names every position exactly once (rule R109 (a) and (c)). -/
def PermTable.Bijective {n : Nat} (T : PermTable n n) : Prop := ∀ p ∈ List.range' 1 n, T.timesNamed p = 1

/-- `T[U[i]-1] = i+1` for every index i (rule R109 (b)). -/
def PermTable.Inverts {n : Nat} (T U : PermTable n n) : Prop :=
  ∀ i : Fin n, T.entries[U.entries[i] - 1]? = some (i.val + 1)

/-- The sixteen positions that E names twice (rule R109 (d)). -/
def expandedTwice : List Nat := [1, 4, 5, 8, 9, 12, 13, 16, 17, 20, 21, 24, 25, 28, 29, 32]

/-- The eight positions PC1 never names, the least significant bit of each key byte (rule R109 (e)). -/
def parityPositions : List Nat := [8, 16, 24, 32, 40, 48, 56, 64]

/-- The eight positions PC2 never names (rule R109 (f)). -/
def droppedByPC2 : List Nat := [9, 18, 22, 25, 35, 38, 43, 54]

/-- Rule R109 (a), (b) and (c): IP and FP are bijections and each the inverse of the other, and P is a bijection. -/
def SquareTableFacts : Prop :=
  IP.Bijective ∧ FP.Bijective ∧ IP.Inverts FP ∧ FP.Inverts IP ∧ P.Bijective

/-- Rule R109 (d): E names every position of 1..32, exactly the sixteen listed twice. -/
def ExpansionTableFacts : Prop :=
  ∀ p ∈ List.range' 1 32, E.timesNamed p = if p ∈ expandedTwice then 2 else 1

/-- Rule R109 (e) and (f): the entries of PC1 are distinct and leave out the parity positions; those of PC2 are
distinct and leave out eight positions, the first 24 being of C (1..28) and the last 24 of D (29..56). -/
def KeyTableFacts : Prop :=
  (∀ p ∈ List.range' 1 64, PC1.timesNamed p = if p ∈ parityPositions then 0 else 1) ∧
  (∀ p ∈ List.range' 1 56, PC2.timesNamed p = if p ∈ droppedByPC2 then 0 else 1) ∧
  (∀ p ∈ PC2.entries.toList.take 24, 1 ≤ p ∧ p ≤ 28) ∧ ∀ p ∈ PC2.entries.toList.drop 24, 29 ≤ p ∧ p ≤ 56

end Sys2Proof.Machine
end

