-- ==== Sys2Proof/Machine/KeySchedule.lean ====
section
/-! DEFINITION. The KeySchedule unit (spec file 42_keyschedule.md). -/
namespace Sys2Proof.Machine

/-- The rotation schedule SHIFTS (rule R118). -/
def SHIFTS : Vector Nat 16 := #v[1, 1, 2, 2, 2, 2, 2, 2, 1, 2, 2, 2, 2, 2, 2, 1]

/-- `rotl28` (rule R117): `v'[j] = v[(j + n) % 28]`, a circular rotation toward index 0. -/
def rotl28 (v : KeyHalf) (n : Nat) : KeyHalf :=
  ofBits 28 ((List.range 28).map fun j => v.getMsbD ((j + n) % 28))

/-- The 56-bit key-schedule state as its two halves, `C ++ D` (rule R28). -/
structure KeyState where
  c : KeyHalf
  d : KeyHalf
  deriving DecidableEq, Repr

/-- A block of eight bytes as a 64-bit vector, byte 0 first, each most significant bit first (rules R51, R77 and
R115): `bytesToBits`, whose length is 64 for the eight bytes every caller gives. -/
def blockVector (bytes : ByteSeq) : Block := (bytesToBits bytes).setWidth 64

/-- Step 1 (rule R116): PC1, then C is bits 0..27 and D is bits 28..55. -/
def initialKeyState (k64 : Block) : KeyState :=
  let s0 := permuteBits k64 PC1
  { c := subvec s0 0 28, d := subvec s0 28 28 }

/-- Step 2 (rule R119): both halves rotated left independently by the same amount. -/
def rotateKeyState (n : Nat) (k : KeyState) : KeyState := { c := rotl28 k.c n, d := rotl28 k.d n }

/-- Step 3 (rule R119): PC2 on `C ++ D`. -/
def subkeyOf (k : KeyState) : Subkey := permuteBits (k.c ++ k.d : BitVec 56) PC2

/-- Steps 2 to 4 (rules R119 and R120), one round for each entry of the schedule: rotate, take the subkey, and
pass the rotated state on. -/
def keyRounds : List Nat → KeyState → List Subkey
  | [], _ => []
  | n :: rest, k =>
    let k' := rotateKeyState n k
    subkeyOf k' :: keyRounds rest k'

theorem length_keyRounds (ns : List Nat) (k : KeyState) : (keyRounds ns k).length = ns.length := by
  induction ns generalizing k with
  | nil => rfl
  | cons n rest ih => simp [keyRounds, ih]

/-- `deriveSubkeys` (rule R121): the ordered list of sixteen subkeys of an eight-byte key. -/
def deriveSubkeys (key : ByteSeq) : Subkeys :=
  ⟨(keyRounds SHIFTS.toList (initialKeyState (blockVector key))).toArray, by
    simp [length_keyRounds]⟩

end Sys2Proof.Machine
end

