-- ==== Sys2Proof/Machine/SBoxTable.lean ====
section
/-! DEFINITION. The SBoxTable unit (spec file 43_sbox.md): eight boxes of 4 rows and 16 columns of 4-bit values. -/
namespace Sys2Proof.Machine

/-- One box: four rows of sixteen columns, each entry in 0..15 (rule R130). -/
abbrev SBox := Vector (Vector (Fin 16) 16) 4

/-- Box 0 (rule R131); the entries are the ones spec/ supplies (assumption 9). -/
def sbox0 : SBox :=
  #v[#v[14,  4, 13,  1,  2, 15, 11,  8,  3, 10,  6, 12,  5,  9,  0,  7],
     #v[ 0, 15,  7,  4, 14,  2, 13,  1, 10,  6, 12, 11,  9,  5,  3,  8],
     #v[ 4,  1, 14,  8, 13,  6,  2, 11, 15, 12,  9,  7,  3, 10,  5,  0],
     #v[15, 12,  8,  2,  4,  9,  1,  7,  5, 11,  3, 14, 10,  0,  6, 13]]

/-- Box 1 (rule R132); the entries are the ones spec/ supplies (assumption 9). -/
def sbox1 : SBox :=
  #v[#v[15,  1,  8, 14,  6, 11,  3,  4,  9,  7,  2, 13, 12,  0,  5, 10],
     #v[ 3, 13,  4,  7, 15,  2,  8, 14, 12,  0,  1, 10,  6,  9, 11,  5],
     #v[ 0, 14,  7, 11, 10,  4, 13,  1,  5,  8, 12,  6,  9,  3,  2, 15],
     #v[13,  8, 10,  1,  3, 15,  4,  2, 11,  6,  7, 12,  0,  5, 14,  9]]

/-- Box 2 (rule R133); the entries are the ones spec/ supplies (assumption 9). -/
def sbox2 : SBox :=
  #v[#v[10,  0,  9, 14,  6,  3, 15,  5,  1, 13, 12,  7, 11,  4,  2,  8],
     #v[13,  7,  0,  9,  3,  4,  6, 10,  2,  8,  5, 14, 12, 11, 15,  1],
     #v[13,  6,  4,  9,  8, 15,  3,  0, 11,  1,  2, 12,  5, 10, 14,  7],
     #v[ 1, 10, 13,  0,  6,  9,  8,  7,  4, 15, 14,  3, 11,  5,  2, 12]]

/-- Box 3 (rule R134); the entries are the ones spec/ supplies (assumption 9). -/
def sbox3 : SBox :=
  #v[#v[ 7, 13, 14,  3,  0,  6,  9, 10,  1,  2,  8,  5, 11, 12,  4, 15],
     #v[13,  8, 11,  5,  6, 15,  0,  3,  4,  7,  2, 12,  1, 10, 14,  9],
     #v[10,  6,  9,  0, 12, 11,  7, 13, 15,  1,  3, 14,  5,  2,  8,  4],
     #v[ 3, 15,  0,  6, 10,  1, 13,  8,  9,  4,  5, 11, 12,  7,  2, 14]]

/-- Box 4 (rule R135); the entries are the ones spec/ supplies (assumption 9). -/
def sbox4 : SBox :=
  #v[#v[ 2, 12,  4,  1,  7, 10, 11,  6,  8,  5,  3, 15, 13,  0, 14,  9],
     #v[14, 11,  2, 12,  4,  7, 13,  1,  5,  0, 15, 10,  3,  9,  8,  6],
     #v[ 4,  2,  1, 11, 10, 13,  7,  8, 15,  9, 12,  5,  6,  3,  0, 14],
     #v[11,  8, 12,  7,  1, 14,  2, 13,  6, 15,  0,  9, 10,  4,  5,  3]]

/-- Box 5 (rule R136); the entries are the ones spec/ supplies (assumption 9). -/
def sbox5 : SBox :=
  #v[#v[12,  1, 10, 15,  9,  2,  6,  8,  0, 13,  3,  4, 14,  7,  5, 11],
     #v[10, 15,  4,  2,  7, 12,  9,  5,  6,  1, 13, 14,  0, 11,  3,  8],
     #v[ 9, 14, 15,  5,  2,  8, 12,  3,  7,  0,  4, 10,  1, 13, 11,  6],
     #v[ 4,  3,  2, 12,  9,  5, 15, 10, 11, 14,  1,  7,  6,  0,  8, 13]]

/-- Box 6 (rule R137); the entries are the ones spec/ supplies (assumption 9). -/
def sbox6 : SBox :=
  #v[#v[ 4, 11,  2, 14, 15,  0,  8, 13,  3, 12,  9,  7,  5, 10,  6,  1],
     #v[13,  0, 11,  7,  4,  9,  1, 10, 14,  3,  5, 12,  2, 15,  8,  6],
     #v[ 1,  4, 11, 13, 12,  3,  7, 14, 10, 15,  6,  8,  0,  5,  9,  2],
     #v[ 6, 11, 13,  8,  1,  4, 10,  7,  9,  5,  0, 15, 14,  2,  3, 12]]

/-- Box 7 (rule R138); the entries are the ones spec/ supplies (assumption 9). -/
def sbox7 : SBox :=
  #v[#v[13,  2,  8,  4,  6, 15, 11,  1, 10,  9,  3, 14,  5,  0, 12,  7],
     #v[ 1, 15, 13,  8, 10,  3,  7,  4, 12,  5,  6, 11,  0, 14,  9,  2],
     #v[ 7, 11,  4,  1,  9, 12, 14,  2,  0,  6, 10, 13, 15,  3,  5,  8],
     #v[ 2,  1, 14,  7,  4, 10,  8, 13, 15, 12,  9,  0,  3,  5,  6, 11]]

/-- `S[box][row][col]` (rule R130). -/
def S : Vector SBox 8 := #v[sbox0, sbox1, sbox2, sbox3, sbox4, sbox5, sbox6, sbox7]

/-- Rule R141, proved in Laws/KnownAnswers.lean: every row of every box is a permutation of 0..15. -/
def SboxRowFacts : Prop := ∀ (box : Fin 8) (row : Fin 4) (v : Fin 16), S[box][row].toList.count v = 1

/-- The row a 6-bit group selects: `2*g[0] + g[5]` (rule R139). -/
def sboxRow (g : BitVec 6) : Fin 4 :=
  Fin.ofNat 4 (2 * (g.getMsbD 0).toNat + (g.getMsbD 5).toNat)

/-- The column a 6-bit group selects: `8*g[1] + 4*g[2] + 2*g[3] + g[4]` (rule R139). -/
def sboxCol (g : BitVec 6) : Fin 16 :=
  Fin.ofNat 16
    (8 * (g.getMsbD 1).toNat + 4 * (g.getMsbD 2).toNat + 2 * (g.getMsbD 3).toNat + (g.getMsbD 4).toNat)

/-- `sboxLookup` (rule R139): the entry at the group's row and column. -/
def sboxLookup (box : Fin 8) (g : BitVec 6) : Fin 16 := S[box][sboxRow g][sboxCol g]

/-- The eight boxes in group order (rule R140). -/
def boxOrder : List (Fin 8) := [0, 1, 2, 3, 4, 5, 6, 7]

/-- `substitute` (rule R140): group j is `x[6j..6j+5]`, looked up in box j; its value is `s[4j..4j+3]`, most
significant bit first. -/
def substitute (x : BitVec 48) : BitVec 32 :=
  ofBits 32 (boxOrder.flatMap fun j => bitsOf (BitVec.ofFin (w := 4) (sboxLookup j (subvec x (6 * j.val) 6))))

end Sys2Proof.Machine
end

