-- ==== Sys2Proof/Machine/BlockCipher.lean ====
section
/-! DEFINITION. The FeistelRound and BlockCipher units (spec file 44_blockcipher.md). -/
namespace Sys2Proof.Machine

/-- The two halves of the block being transformed (rule R30). -/
structure Halves where
  l : Half
  r : Half
  deriving DecidableEq, Repr

/-- `feistelF` (rule R145), steps a to d: expand, XOR with the subkey, substitute, permute. -/
def feistelF (r : Half) (k : Subkey) : Half := permuteBits (substitute (permuteBits r E ^^^ k)) P

/-- `feistelRound` (rule R146), steps a to f; both results read the old halves. -/
def feistelRound (h : Halves) (k : Subkey) : Halves := { l := h.r, r := feistelF h.r k ^^^ h.l }

/-- Which subkey round r reads (rule R148): r when encrypting, 15 − r when decrypting. -/
def subkeyIndex (r : Fin 16) : Direction → Fin 16
  | .encrypt => r
  | .decrypt => ⟨15 - r.val, by omega⟩

/-- Steps 1 and 2 of `transform` (rule R149): IP, then L is bits 0..31 and R is bits 32..63. -/
def initialHalves (b : Block) : Halves :=
  let v := permuteBits b IP
  { l := subvec v 0 32, r := subvec v 32 32 }

/-- Step 3 of `transform` (rule R149): the sixteen rounds in order. -/
def sixteenRounds (sk : Subkeys) (d : Direction) (h : Halves) : Halves :=
  (List.finRange 16).foldl (fun h r => feistelRound h sk[subkeyIndex r d]) h

/-- Step 4 of `transform` (rules R149 and R150): right half before left half, then FP. -/
def finalBlock (h : Halves) : Block := permuteBits (h.r ++ h.l : BitVec 64) FP

/-- `transform` on the 64-bit vector of a block (rule R149). -/
def transformVector (b : Block) (sk : Subkeys) (d : Direction) : Block :=
  finalBlock (sixteenRounds sk d (initialHalves b))

/-- `transform(block, subkeys, direction)` on a block of eight bytes (rule R149). -/
def transform (block : ByteSeq) (sk : Subkeys) (d : Direction) : Except ErrorKind ByteSeq :=
  bitsToBytes (transformVector (blockVector block) sk d)

end Sys2Proof.Machine
end

