-- ==== Sys2Proof/Config.lean ====
section
/-! DEFINITION. What an implementation of DES-CORE fixes and the document does not: the named parameters of
rule R8. No rule's result depends on them, so no meaning reads them; the model's buffers are unbounded lists and
its key elements unbounded integers, which rule R8 allows because that admits every sized implementation. The
parameters are here so that one can state what a machine of a given size can be presented with and that its
output buffer never overflows. -/
namespace Sys2Proof.Config

/-- `REGMAP` (rule R8): the bus address of each register, each buffer and the command port. The spec fixes no
address and no constraint on one, and no rule reads it (rules R8 and R62); that an address is a natural number, one
for each name the host uses, is the model's choice (assumption 13). -/
structure RegMap where
  klen : Nat
  keybuf : Nat
  ilen : Nat
  ibuf : Nat
  olen : Nat
  obuf : Nat
  err : Nat
  cmd : Nat
  deriving DecidableEq, Repr

/-- The six parameters of rule R8. -/
structure Params where
  /-- `KEY_ELEM_BITS`, the width of one key element as presented, a two's-complement signed integer. -/
  keyElemBits : Nat
  /-- `KEYBUF_CAP`, the largest number of key elements that can be presented. -/
  keybufCap : Nat
  /-- `IBUF_CAP`, the largest input length in bytes. -/
  ibufCap : Nat
  /-- `OBUF_CAP`, the largest output length in bytes. -/
  obufCap : Nat
  /-- `REGMAP`, the bus addresses of the registers and buffers; no constraint, and no rule reads it. -/
  regmap : RegMap
  /-- `LANES`, how many blocks are transformed at once; not observable (rule R65). -/
  lanes : Nat
  deriving DecidableEq, Repr

end Sys2Proof.Config
end

