-- ==== Sys2Proof/Syntax.lean ====
section
/-! DEFINITION. The five commands of DES-CORE (rule R71), one constructor per row of spec/opcode_table.json. A
command has no operand fields: every operand is taken from a fixed place (rules R70 and R74). -/
namespace Sys2Proof

/-- The commands (rule R71). -/
inductive Instr where
  /-- KSCH 0x02: validate the key, derive the sixteen subkeys, output them (rule R124). -/
  | ksch
  /-- ENCB 0x04: validate the key, transform one block, direction ENCRYPT (rule R151). -/
  | encb
  /-- DECB 0x05: validate the key, transform one block, direction DECRYPT (rule R152). -/
  | decb
  /-- ENCM 0x06: encrypt a message with zero padding (rule R167). -/
  | encm
  /-- DECM 0x07: decrypt a message and drop every zero byte (rule R169). -/
  | decm
  deriving DecidableEq, Repr

end Sys2Proof
end

