-- ==== Sys2Proof/WellFormed.lean ====
section
/-! DEFINITION. The checks on a command word (rules R70 to R73), on an instruction, and on the parameters of an
implementation (rule R8). -/
namespace Sys2Proof

/-- Bits 7:4 "must be 0000" (rule R70). -/
def CmdWord.zeroOk (w : CmdWord) : Bool := w.zero == 0

/-- `fn` is 001, 010 or 011; "every other value reserved" (rule R70). -/
def CmdWord.fnOk (w : CmdWord) : Bool := w.fn == 1 || w.fn == 2 || w.fn == 3

/-- "KSCH has no direction; its `dir` bit must be 0" (rule R72). -/
def CmdWord.dirOk (w : CmdWord) : Bool := w.fn != 1 || w.dir == 0

/-- A command word that is not reserved (rules R71 and R73). -/
def CmdWord.wf (w : CmdWord) : Bool := w.zeroOk && w.fnOk && w.dirOk

/-- A command carries no operand, so there is nothing in one that could be ill-formed (rules R70 and R74). -/
def Instr.wf : Instr → Bool
  | .ksch => true
  | .encb => true
  | .decb => true
  | .encm => true
  | .decm => true

namespace Config

/-- `KEY_ELEM_BITS` ≥ 10, so that −1 and 256 can both be presented (rule R8). -/
def Params.keyElemOk (p : Params) : Bool := 10 ≤ p.keyElemBits

/-- `KEYBUF_CAP` ≥ 9, so that a nine-element key can be presented and refused (rule R8). -/
def Params.keybufOk (p : Params) : Bool := 9 ≤ p.keybufCap

/-- `IBUF_CAP` ≥ 8 (rule R8). -/
def Params.ibufOk (p : Params) : Bool := 8 ≤ p.ibufCap

/-- `OBUF_CAP` ≥ max(96, IBUF_CAP + 8) (rule R8). -/
def Params.obufOk (p : Params) : Bool := max 96 (p.ibufCap + 8) ≤ p.obufCap

/-- `LANES` ≥ 1 (rule R8). -/
def Params.lanesOk (p : Params) : Bool := 1 ≤ p.lanes

/-- All the constraints of rule R8; for `REGMAP` it gives none. -/
def Params.wf (p : Params) : Bool :=
  p.keyElemOk && p.keybufOk && p.ibufOk && p.obufOk && p.lanesOk

/-- A key element that an implementation of size `p` can present: a two's-complement signed integer of
`KEY_ELEM_BITS` bits (rule R21). -/
def Params.elemFits (p : Params) (e : Int) : Bool :=
  -(2 ^ (p.keyElemBits - 1) : Int) ≤ e && e ≤ 2 ^ (p.keyElemBits - 1) - 1

/-- A whole key that an implementation of size `p` can present (rules R8 and R21). -/
def Params.keyFits (p : Params) (es : List Int) : Bool :=
  es.length ≤ p.keybufCap && es.all p.elemFits

/-- A data input that an implementation of size `p` can present (rules R8 and R22). -/
def Params.inputFits (p : Params) (bs : ByteSeq) : Bool := bs.length ≤ p.ibufCap

end Config
end Sys2Proof
end

