-- ==== Sys2Proof/Decode.lean ====
section
/-! DEFINITION. Decoding and encoding of the command byte (rules R70 to R73). A decoder reads exactly one byte
per command; every byte that is not one of the five of rule R71 is reserved and is rejected by the name of the
field that makes it so. -/
namespace Sys2Proof

/-- Why a byte sequence is no command. -/
inductive Reject where
  /-- There is no byte to read. -/
  | noByte
  /-- Bits 7:4 are not 0000 (rule R70). -/
  | reservedZeroField
  /-- `fn` is none of 001, 010, 011 (rule R70). -/
  | reservedFunction
  /-- `fn` = 001 (KSCH) with `dir` = 1: 0x03 is reserved (rule R72). -/
  | reservedDirection
  deriving DecidableEq, Repr

/-- Cut a command byte into the fields of format C (rule R70). -/
def splitWord (c : Byte) : CmdWord :=
  { zero := c.extractLsb' 4 4, fn := c.extractLsb' 1 3, dir := c.extractLsb' 0 1 }

/-- Lay the fields of format C out as a byte (rule R70). -/
def joinWord (w : CmdWord) : Byte := w.zero ++ w.fn ++ w.dir

/-- The command a well-formed command word names (rule R71): 001 = key schedule, 010 = block, 011 = message;
`dir` 0 = ENCRYPT, 1 = DECRYPT (rule R72). -/
def commandOf (w : CmdWord) : Instr :=
  if w.fn = 1 then .ksch
  else if w.fn = 2 then (if w.dir = 0 then .encb else .decb)
  else (if w.dir = 0 then .encm else .decm)

/-- Decode one command byte; total, a reserved byte rejected by name (rules R71 and R73). -/
def decodeByte (c : Byte) : Except Reject Instr :=
  let w := splitWord c
  if w.zeroOk then
    if w.fnOk then
      if w.dirOk then .ok (commandOf w) else .error .reservedDirection
    else .error .reservedFunction
  else .error .reservedZeroField

/-- Decode the first command of a byte sequence and answer what is left: exactly one byte is read per command
(rule R70). -/
def decode : ByteSeq → Except Reject (Instr × ByteSeq)
  | [] => .error .noByte
  | c :: rest =>
    match decodeByte c with
    | .ok i => .ok (i, rest)
    | .error r => .error r

/-- Decode a whole sequence of command bytes, up to the first reserved one. -/
def decodeAll : ByteSeq → Except Reject (List Instr)
  | [] => .ok []
  | c :: rest =>
    match decodeByte c with
    | .ok i =>
      match decodeAll rest with
      | .ok is => .ok (i :: is)
      | .error r => .error r
    | .error r => .error r

/-- The fields of each command's word (rule R71's columns `fn` and `dir`). -/
def fieldsOf : Instr → CmdWord
  | .ksch => { zero := 0, fn := 1, dir := 0 }
  | .encb => { zero := 0, fn := 2, dir := 0 }
  | .decb => { zero := 0, fn := 2, dir := 1 }
  | .encm => { zero := 0, fn := 3, dir := 0 }
  | .decm => { zero := 0, fn := 3, dir := 1 }

/-- The command byte of an instruction (rule R71). -/
def encodeByte (i : Instr) : Byte := joinWord (fieldsOf i)

/-- The bytes of an instruction: exactly one (rule R70). -/
def encode (i : Instr) : ByteSeq := [encodeByte i]

/-- The bytes of a sequence of commands, in order. -/
def encodeAll (is : List Instr) : ByteSeq := is.flatMap encode

/-- One row of spec/opcode_table.json: a mask, a pattern and the command it stands for. -/
structure OpcodeRow where
  mask    : Byte
  pattern : Byte
  command : Instr
  deriving DecidableEq, Repr

/-- spec/opcode_table.json, row by row (its columns `mask` and `match`). -/
def opcodeTable : List OpcodeRow :=
  [ { mask := 0xFF, pattern := 0x02, command := .ksch },
    { mask := 0xFF, pattern := 0x04, command := .encb },
    { mask := 0xFF, pattern := 0x05, command := .decb },
    { mask := 0xFF, pattern := 0x06, command := .encm },
    { mask := 0xFF, pattern := 0x07, command := .decm } ]

/-- The command byte of a table word of `nbits` bits, every bit from `nbits` up being 0. A command is one byte
(rule R70), so byte 0 of the word, its bits 7..0, is the whole of it. -/
def tableWordByte (nbits w : Nat) : Byte := BitVec.ofNat 8 (w % 2 ^ nbits)

/-- The instruction the decoder reads from a word of spec/opcode_table.json. -/
def decodeTableWord (nbits w : Nat) : Option Instr :=
  match decode [tableWordByte nbits w] with
  | .ok (i, _) => some i
  | .error _ => none

end Sys2Proof
end

