-- ==== Sys2Proof/Machine/Flags.lean ====
section
/-! DEFINITION. The outcome indication. "There are no flags, condition codes or predicates" (rule R26): the only
outcome indication is ERR, with OLEN. This file computes the value of ERR (rule R185). -/
namespace Sys2Proof.Machine

/-- The code of an error kind (rule R185). -/
def ErrorKind.code : ErrorKind → BitVec 8
  | .invalidKeyLength => 1
  | .invalidKeyValue => 2
  | .malformedCiphertext => 3
  | .malformedBitLength => 4
  | .illegalCommand => 5
  | .malformedBlock => 6

/-- ERR after a command that succeeded (rules R25 and R185). -/
def successCode : BitVec 8 := 0

/-- The value a command writes to ERR at its end: 0 on success, else the code of the one kind that ended it
(rule R25). -/
def errValue {α : Type} : Except ErrorKind α → BitVec 8
  | .ok _ => successCode
  | .error k => k.code

/-- The error kind the host reads from ERR: none after a success and at the codes 7 to 255, which "are never
written to ERR" (rule R185). -/
def kindOfCode (e : BitVec 8) : Option ErrorKind :=
  if e = 1 then some .invalidKeyLength
  else if e = 2 then some .invalidKeyValue
  else if e = 3 then some .malformedCiphertext
  else if e = 4 then some .malformedBitLength
  else if e = 5 then some .illegalCommand
  else if e = 6 then some .malformedBlock
  else none

end Sys2Proof.Machine
end

