-- ==== Sys2Proof/Machine/Ops.lean ====
section
/-! DEFINITION. The named operations on the registers and buffers (rule R14), the end of a command with and
without an error (rules R76 and R191), and the host's accesses (rules R37, R69 and R81). -/
namespace Sys2Proof.Machine

/-! ### The primitives of rule R14 -/

/-- `MemRead(B, a, n)` of a byte buffer: the ByteSeq `B[a..a+n-1]`. Its callers keep `a + n ≤` the buffer's
length. -/
def memRead (buf : ByteSeq) (a n : Nat) : ByteSeq := (buf.drop a).take n

/-- `MemWrite(OBUF, a, n, out)`: the bytes of `out` at `buf[a..a+n-1]`, every other byte as it was. Its callers keep
`a + n ≤` the buffer's length. Rule R14 states that requirement for `MemRead` and none for `MemWrite`. DESIGN CHOICE
(assumption 11, unsafe outside that range): a write that runs past the end makes the buffer longer, and one at an
address past the end puts the bytes at the end of the list, not at index `a`. -/
def memWrite (buf : ByteSeq) (a : Nat) (out : ByteSeq) : ByteSeq :=
  buf.take a ++ out ++ buf.drop (a + out.length)

/-- `KeyRead(j)` = KEYBUF[j] as a signed integer, for j < KLEN; an element at or beyond KLEN does not exist
(rule R21). -/
def keyRead (s : State) (j : Nat) : Option Int := s.keybuf[j]?

/-- One byte of IBUF; a byte at or beyond ILEN does not exist (rule R22). -/
def ibufRead (s : State) (j : Nat) : Option Byte := s.ibuf[j]?

/-- One byte of OBUF. A read at or beyond OLEN is outside the interface and has no value here (rule R23, U3). -/
def obufRead (s : State) (j : Nat) : Option Byte := s.obuf[j]?

/-! ### The end of a command -/

/-- The end of a command that returned `out` (rule R76): OBUF[0..OLEN−1] = out, ERR = 0, the inputs kept. -/
def completeCommand (out : ByteSeq) (s : State) : State :=
  { s with obuf := out, err := successCode }

/-- The end of a command that raised kind `k` (rule R191): OLEN = 0, ERR = code(k), the inputs kept. This is the
one operation that takes an error; there is nothing to return from (rule R192). -/
def raiseError (k : ErrorKind) (s : State) : State :=
  { s with obuf := [], err := k.code }

/-- End a command with what its rule answered (rule R76). -/
def endCommand (r : Except ErrorKind ByteSeq) (s : State) : Host.Outcome State Fault Refusal :=
  match r with
  | .ok out => .next (completeCommand out s)
  | .error k => .next (raiseError k s)

/-- A reserved command byte (rule R73): no work, no buffer read, `IllegalCommand`. -/
def illegalCommand (s : State) : Host.Outcome State Fault Refusal :=
  .next (raiseError .illegalCommand s)

/-! ### The host's accesses -/

/-- A host write of KEYBUF: KLEN and every element together (rule R37). -/
def hostLoadKey (elems : List Int) (s : State) : State := { s with keybuf := elems }

/-- A host write of IBUF: ILEN and every byte together (rule R37). -/
def hostLoadIn (bytes : ByteSeq) (s : State) : State := { s with ibuf := bytes }

/-- `LOADIN OBUF`: ILEN <- OLEN, IBUF[j] <- OBUF[j] (rule R81). -/
def hostLoadInObuf (s : State) : State := hostLoadIn s.obuf s

/-- Reset: every register at its reset value (rules R39 and R210). The host's later moves are still to come. -/
def hostReset (s : State) : State := { State.reset with moves := s.moves }

/-- What a host read returns, as an integer (rule R37); no value for an element or byte that does not exist
(U2, U3). A read has no side effect (rule R60), so it answers no state. -/
def hostRead (r : HostRead) (s : State) : Option Int :=
  match r with
  | .klen => some s.klen
  | .key j => keyRead s j
  | .ilen => some s.ilen
  | .ibyte j => (ibufRead s j).map fun b => (b.toNat : Int)
  | .olen => some s.olen
  | .obyte j => (obufRead s j).map fun b => (b.toNat : Int)
  | .err => some s.err.toNat

/-! ### Host syntax (rules R81, R82 and R84) -/

/-- A command mnemonic on a line of its own: write its byte to CMD (rule R81). -/
def mnemonicMove (i : Instr) : HostMove := .issue (encodeByte i)

/-- `LOADIN "text"`: the ordinals of the characters; a text with an ordinal above 255 cannot be presented
(rules R81 and R94, U4). -/
def textMove (text : List Char) : Option HostMove :=
  if text.all (fun c => c.toNat ≤ 255) then
    some (.loadIn (text.map fun c => BitVec.ofNat 8 c.toNat))
  else none

/-- `EXPECT ERR=e, OLEN=n, OBUF=h`: not an action but what the host reads (rule R81). -/
def expectHolds (e n : Nat) (h : ByteSeq) (s : State) : Bool :=
  s.err.toNat == e && s.olen == n && s.obuf == h

/-- The line-oriented form of a byte sequence at the boundary: one integer 0..255 a line (rule R84). -/
def toLines (bytes : ByteSeq) : List Int := bytes.map fun b => (b.toNat : Int)

/-- Parse the lines back; an integer outside 0..255 is no byte (rule R84). -/
def ofLines (lines : List Int) : Option ByteSeq :=
  if lines.all (fun x => 0 ≤ x && x ≤ 255) then some (lines.map (BitVec.ofInt 8)) else none

end Sys2Proof.Machine
end

