-- ==== Sys2Proof/Machine/Ecb.lean ====
section
/-! DEFINITION. The ECBProcessor unit (spec file 45_ecb.md) and the block and message order of 20_memory.md. -/
namespace Sys2Proof.Machine

/-- `validateKey` (rule R165): the length first, then every element in [0,255] from element 0 upward. -/
def validateKey (key : List Int) : Except ErrorKind Unit :=
  if key.length ≠ 8 then .error .invalidKeyLength
  else if key.all (fun e => 0 ≤ e && e ≤ 255) then .ok ()
  else .error .invalidKeyValue

/-- The elements of a validated key as bytes (rule R115). -/
def keyBytes (key : List Int) : ByteSeq := key.map (BitVec.ofInt 8)

/-- Block b of a message, `m[8*b .. 8*b+7]` (rule R54). -/
def blockAt (m : ByteSeq) (b : Nat) : ByteSeq := memRead m (8 * b) 8

/-- The consecutive 8-byte blocks of a message whose length is a multiple of 8 (rule R54). -/
def splitBlocks (m : ByteSeq) : List ByteSeq := (List.range (m.length / 8)).map (blockAt m)

/-- Transform each block and concatenate the results in original order (rules R55, R166 and R168). -/
def transformBlocks (sk : Subkeys) (d : Direction) : List ByteSeq → Except ErrorKind ByteSeq
  | [] => .ok []
  | b :: rest =>
    match transform b sk d with
    | .error k => .error k
    | .ok c =>
      match transformBlocks sk d rest with
      | .error k => .error k
      | .ok out => .ok (c ++ out)

/-- Transform the blocks of `m` in ANY given order, writing block b's result at output bytes `8*b..8*b+7`
(rules R55 and R65). The commands use index order; that no other order gives another output is a statement. -/
def transformInOrder (sk : Subkeys) (d : Direction) (m : ByteSeq) :
    List Nat → ByteSeq → Except ErrorKind ByteSeq
  | [], out => .ok out
  | b :: rest, out =>
    match transform (blockAt m b) sk d with
    | .error k => .error k
    | .ok c => transformInOrder sk d m rest (memWrite out (8 * b) c)

/-- `encryptMessage(key, text)` (rule R166). -/
def encryptMessage (key : List Int) (text : ByteSeq) : Except ErrorKind ByteSeq :=
  match validateKey key with
  | .error k => .error k
  | .ok () => transformBlocks (deriveSubkeys (keyBytes key)) .encrypt (splitBlocks (textToBytes text))

/-- `decryptMessage(key, bytes)` (rule R168): the key first, then the length, then all the work. -/
def decryptMessage (key : List Int) (bytes : ByteSeq) : Except ErrorKind ByteSeq :=
  match validateKey key with
  | .error k => .error k
  | .ok () =>
    if bytes.length % 8 ≠ 0 then .error .malformedCiphertext
    else
      match transformBlocks (deriveSubkeys (keyBytes key)) .decrypt (splitBlocks bytes) with
      | .error k => .error k
      | .ok p => .ok (bytesToText p)

end Sys2Proof.Machine
end

