-- ==== Sys2Proof/Machine/Operands.lean ====
section
/-! DEFINITION. Where each command's operands come from (rule R74): fixed places, nothing to decode; and how a key
element is read from the bits in which a sized implementation presents it (rules R12 and R21). -/
namespace Sys2Proof.Machine

/-- The `key` operand of all five commands: KEYBUF[0..KLEN−1] as signed integers (rule R74). -/
def keyOperand (s : State) : List Int := s.keybuf

/-- The `block` operand of ENCB and DECB: IBUF[0..7]; it needs ILEN = 8 (rules R56 and R74). -/
def blockOperand (s : State) : Except ErrorKind ByteSeq :=
  if s.ilen ≠ 8 then .error .malformedBlock else .ok (memRead s.ibuf 0 8)

/-- The `text` operand of ENCM and the `bytes` operand of DECM: IBUF[0..ILEN−1] (rule R74). -/
def messageOperand (s : State) : ByteSeq := memRead s.ibuf 0 s.ilen

/-- A key element of `KEY_ELEM_BITS` bits, read as a two's-complement signed integer: `sext(KEYBUF[j])`
(rules R12 and R21). -/
def sextElem {keyElemBits : Nat} (w : BitVec keyElemBits) : Int := w.toInt

/-- `LOADKEY` as an implementation with `KEY_ELEM_BITS`-bit elements is presented with it (rule R21). -/
def loadKeyBits {keyElemBits : Nat} (elems : List (BitVec keyElemBits)) : HostMove :=
  .loadKey (elems.map sextElem)

end Sys2Proof.Machine
end

