-- ==== Sys2Proof/Machine/BlockCommands.lean ====
section
/-! DEFINITION. The meanings of ENCB and DECB (rules R151 and R152). -/
namespace Sys2Proof.Machine

/-- What a block command returns or raises (rules R151 and R152): the key is validated, then the block's length,
then one `transform`; no padding is added and no zero byte is stripped. -/
def blockResult (d : Direction) (s : State) : Except ErrorKind ByteSeq :=
  match validateKey (keyOperand s) with
  | .error k => .error k
  | .ok () =>
    match blockOperand s with
    | .error k => .error k
    | .ok block => transform block (deriveSubkeys (keyBytes (keyOperand s))) d

/-- ENCB, encrypt one block (rules R76 and R151). -/
def execEncb (s : State) : Host.Outcome State Fault Refusal := endCommand (blockResult .encrypt s) s

/-- DECB, decrypt one block (rules R76 and R152). -/
def execDecb (s : State) : Host.Outcome State Fault Refusal := endCommand (blockResult .decrypt s) s

end Sys2Proof.Machine
end

