-- ==== Sys2Proof/Machine/KeyCommands.lean ====
section
/-! DEFINITION. The meaning of KSCH (rule R124). -/
namespace Sys2Proof.Machine

/-- The subkeys as bytes, `bitsToBytes` of each in order (rules R53 and R124). -/
def subkeyBytes : List Subkey → Except ErrorKind ByteSeq
  | [] => .ok []
  | k :: rest =>
    match bitsToBytes k with
    | .error e => .error e
    | .ok bs =>
      match subkeyBytes rest with
      | .error e => .error e
      | .ok out => .ok (bs ++ out)

/-- What KSCH returns or raises (rule R124); IBUF and ILEN are ignored. -/
def kschResult (s : State) : Except ErrorKind ByteSeq :=
  match validateKey (keyOperand s) with
  | .error k => .error k
  | .ok () => subkeyBytes (deriveSubkeys (keyBytes (keyOperand s))).toList

/-- KSCH, key schedule to output (rules R76 and R124). -/
def execKsch (s : State) : Host.Outcome State Fault Refusal := endCommand (kschResult s) s

end Sys2Proof.Machine
end

