-- ==== Sys2Proof/Machine/MessageCommands.lean ====
section
/-! DEFINITION. The meanings of ENCM and DECM (rules R167 and R169). -/
namespace Sys2Proof.Machine

/-- ENCM, encrypt a message (rules R76 and R167). -/
def execEncm (s : State) : Host.Outcome State Fault Refusal :=
  endCommand (encryptMessage (keyOperand s) (messageOperand s)) s

/-- DECM, decrypt a message; OBUF receives the ordinals of the text's characters (rules R76 and R169). -/
def execDecm (s : State) : Host.Outcome State Fault Refusal :=
  endCommand (decryptMessage (keyOperand s) (messageOperand s)) s

end Sys2Proof.Machine
end

