-- ==== Sys2Proof/Machine/Step.lean ====
section
/-! DEFINITION. One step of DES-CORE is one move of the host (rules R69 and R76). The hardware fetches no
instructions (rule R67): a command arrives as the byte the host writes to CMD. -/
namespace Sys2Proof.Machine

/-- The issue of a command (rule R76): a host write of byte `c` to CMD, one indivisible step. -/
def issue (c : Byte) (s : State) : Host.Outcome State Fault Refusal :=
  match decodeByte c with
  | .ok i => exec i s
  | .error _ => illegalCommand s

/-- One move of the host (rule R69). -/
def hostMove (m : HostMove) (s : State) : Host.Outcome State Fault Refusal :=
  match m with
  | .loadKey elems => .next (hostLoadKey elems s)
  | .loadIn bytes => .next (hostLoadIn bytes s)
  | .loadInObuf => .next (hostLoadInObuf s)
  | .read _ => .next s
  | .issue c => issue c s
  | .reset => .next (hostReset s)

/-- One step: the host's next move. With no move pending nothing changes, since "the core never acts on its own:
between host moves no state changes" (rule R69). -/
def step (s : State) : Host.Outcome State Fault Refusal :=
  match s.moves with
  | [] => .next s
  | m :: rest => hostMove m { s with moves := rest }

/-- The state in which the host's next move writes the table word to CMD; `step` then decodes and runs it. -/
def State.withFetchWord (s : State) (nbits w : Nat) : State :=
  { s with moves := .issue (tableWordByte nbits w) :: s.moves }

end Sys2Proof.Machine
end

