-- ==== Sys2Proof/Machine/Sequencer.lean ====
section
/-! DEFINITION. The working state of DES-CORE (rules R27 to R32) and each command run register by register over it.

The working state is created by a command and dead at its end; nothing outside the command can read it (rules R35
and R36), and it holds anything at all when a command starts (rule R40). So it stands here, as what a command
carries from one inner step to the next, and not in `State`. That a command's result is the same whatever the
working registers held before is a statement. -/
namespace Sys2Proof.Machine

/-- The working registers and the three sequencing counters. -/
structure Working where
  /-- K64 (rule R27). -/
  k64 : Block
  /-- C (rule R28). -/
  c : KeyHalf
  /-- D (rule R28). -/
  d : KeyHalf
  /-- SK[0..15] (rule R29). -/
  sk : Subkeys
  /-- L (rule R30). -/
  l : Half
  /-- R (rule R30). -/
  r : Half
  /-- The key-schedule round i (rule R32). -/
  i : Nat
  /-- The block index b (rule R32). -/
  b : Nat
  /-- The Feistel round r (rule R32). -/
  rd : Nat
  deriving DecidableEq, Repr

/-- K64 is written once per command, after validation (rule R27). -/
def loadK64 (key : ByteSeq) (w : Working) : Working := { w with k64 := blockVector key }

/-- The PC1 step: C and D from K64, the round counter at 0 (rules R28, R32 and R116). -/
def pc1Step (w : Working) : Working :=
  { w with c := (initialKeyState w.k64).c, d := (initialKeyState w.k64).d, i := 0 }

/-- One key round: rotate C and D by SHIFTS[i], write SK[i], count (rules R28, R29, R32 and R119). -/
def keyRoundStep (w : Working) : Working :=
  let k := rotateKeyState (SHIFTS.toList.getD w.i 0) { c := w.c, d := w.d }
  { w with c := k.c, d := k.d, sk := w.sk.setIfInBounds w.i (subkeyOf k), i := w.i + 1 }

/-- The whole key schedule, rounds 0..15 in order (rule R121). -/
def scheduleSteps (key : ByteSeq) (w : Working) : Working :=
  keyRoundStep^[16] (pc1Step (loadK64 key w))

/-- The initial-permutation step: L and R from the block, the round counter at 0 (rules R30 and R32). -/
def ipStep (block : ByteSeq) (w : Working) : Working :=
  { w with l := (initialHalves (blockVector block)).l, r := (initialHalves (blockVector block)).r, rd := 0 }

/-- One Feistel round: L and R from the subkey of the round and direction, count (rules R30, R32 and R148). -/
def roundStep (dir : Direction) (w : Working) : Working :=
  let h := feistelRound { l := w.l, r := w.r } w.sk[subkeyIndex (Fin.ofNat 16 w.rd) dir]
  { w with l := h.l, r := h.r, rd := w.rd + 1 }

/-- The final step: the bytes of the block from R and L (rules R149 and R150). -/
def fpStep (w : Working) : Except ErrorKind ByteSeq := bitsToBytes (finalBlock { l := w.l, r := w.r })

/-- The block loop over `n` more blocks of `m`, from block index b upward; the results so far are in `out` and
are not yet visible (rules R32, R55 and R59). -/
def blockLoop (dir : Direction) (m : ByteSeq) : Nat → Working → ByteSeq → Except ErrorKind ByteSeq
  | 0, _, out => .ok out
  | n + 1, w, out =>
    let w' := (roundStep dir)^[16] (ipStep (blockAt m w.b) w)
    match fpStep w' with
    | .error k => .error k
    | .ok c => blockLoop dir m n { w' with b := w'.b + 1 } (memWrite out (8 * w'.b) c)

/-- The block loop from block 0 (rule R32). -/
def messageSteps (dir : Direction) (m : ByteSeq) (w : Working) : Except ErrorKind ByteSeq :=
  blockLoop dir m (m.length / 8) { w with b := 0 } []

/-- A command run register by register from the working state `w` (rules R124, R151, R152, R166 and R168). -/
def sequencedResult (i : Instr) (s : State) (w : Working) : Except ErrorKind ByteSeq :=
  match validateKey (keyOperand s) with
  | .error k => .error k
  | .ok () =>
    let w1 := scheduleSteps (keyBytes (keyOperand s)) w
    match i with
    | .ksch => subkeyBytes w1.sk.toList
    | .encb =>
      match blockOperand s with
      | .error k => .error k
      | .ok block => messageSteps .encrypt block w1
    | .decb =>
      match blockOperand s with
      | .error k => .error k
      | .ok block => messageSteps .decrypt block w1
    | .encm => messageSteps .encrypt (textToBytes (messageOperand s)) w1
    | .decm =>
      if (messageOperand s).length % 8 ≠ 0 then .error .malformedCiphertext
      else
        match messageSteps .decrypt (messageOperand s) w1 with
        | .error k => .error k
        | .ok p => .ok (bytesToText p)

end Sys2Proof.Machine
end

