-- ==== Sys2Proof/Safety.lean ====
section
/-! DEFINITION. What counts as a safe run of DES-CORE, and the terms in which the claims are made. -/
namespace Sys2Proof

open Machine

/-- A key that passes validation: "exactly 8 bytes, each in [0,255]" (rules R7 and R165). -/
def ValidKey (key : List Int) : Prop := key.length = 8 ∧ ∀ e ∈ key, 0 ≤ e ∧ e ≤ 255

/-- Two keys that differ at most in the least significant bit of each element (rule R110). -/
def SameButLowBits (k k' : List Int) : Prop := k.map (· / 2) = k'.map (· / 2)

/-- A reserved command byte: every byte but the five of rule R71, as rule R73 lists them. -/
def ReservedByte (c : Byte) : Prop := c = 0x00 ∨ c = 0x01 ∨ c = 0x03 ∨ 0x08 ≤ c.toNat

/-- What the rule of a command answers on (KEYBUF, KLEN, IBUF, ILEN): the bytes it returns or the kind it raises
(rule R76). -/
def resultOf (i : Instr) (s : State) : Except ErrorKind ByteSeq :=
  match i with
  | .ksch => kschResult s
  | .encb => blockResult .encrypt s
  | .decb => blockResult .decrypt s
  | .encm => encryptMessage (keyOperand s) (messageOperand s)
  | .decm => decryptMessage (keyOperand s) (messageOperand s)

/-- The interface invariant: ERR holds 0 or the code of a kind a command can end with (rules R185 and R187), and no
output is readable unless the last command succeeded (rule R191). -/
def State.Inv (s : State) : Prop :=
  (s.err = 0 ∨ s.err = 1 ∨ s.err = 2 ∨ s.err = 3 ∨ s.err = 5 ∨ s.err = 6) ∧ (s.err ≠ 0 → s.obuf = [])

/-- The state fits an implementation of size `p` (rule R8). -/
def State.Fits (p : Config.Params) (s : State) : Prop :=
  p.keyFits s.keybuf = true ∧ p.inputFits s.ibuf = true ∧ s.obuf.length ≤ p.obufCap

/-- The host can make this move on an implementation of size `p`: an input that does not fit cannot be presented
(rule R8, U7). -/
def Presentable (p : Config.Params) (s : State) : HostMove → Prop
  | .loadKey es => p.keyFits es = true
  | .loadIn bs => p.inputFits bs = true
  | .loadInObuf => p.inputFits s.obuf = true
  | .read _ => True
  | .issue _ => True
  | .reset => True

end Sys2Proof
end

