-- ==== Sys2Proof/Certificates/Slice0/Obligations.lean ====
section
/-! DEFINITION. The statements for the provers. Each docstring names the rule of spec/ it formalises. -/

open Sys2Proof Sys2Proof.Machine

/-! ### Encoding and decoding -/

/-- Rule R71 and spec/opcode_table.json: the five command bytes, written out, decode to their commands. -/
def Obligations.CommandBytesDecode : Prop :=
  decodeTableWord 8 0b00000010 = some .ksch ∧ decodeTableWord 8 0b00000100 = some .encb ∧
  decodeTableWord 8 0b00000101 = some .decb ∧ decodeTableWord 8 0b00000110 = some .encm ∧
  decodeTableWord 8 0b00000111 = some .decm

/-- Rules R71 and R73: exactly the five bytes of the table are commands, and a byte is reserved, as rule R73 lists
the reserved bytes, just when it is no command. -/
def Obligations.ExactlyFiveBytesAreCommands : Prop :=
  (∀ (c : Byte) (i : Instr), decodeByte c = .ok i ↔
    (c, i) ∈ [((0x02 : Byte), Instr.ksch), (0x04, .encb), (0x05, .decb), (0x06, .encm), (0x07, .decm)]) ∧
  (∀ c : Byte, ReservedByte c ↔ ∃ r, decodeByte c = .error r)

/-- Rules R70 and R71: a byte sequence decodes to a list of commands just when it is that list's encoding, one byte
a command; so no bit of an encoding is dropped and no word has two meanings. -/
def Obligations.CommandStreamRoundTrip : Prop :=
  (∀ is : List Instr, (encodeAll is).length = is.length) ∧
  ∀ (bytes : ByteSeq) (is : List Instr), decodeAll bytes = .ok is ↔ bytes = encodeAll is

/-- Rule R70: the decoder reads exactly one byte per command and leaves the rest, for every well-formed command. -/
def Obligations.DecoderReadsOneByte : Prop :=
  ∀ (i : Instr) (rest : ByteSeq), i.wf = true → decode (encode i ++ rest) = .ok (i, rest)

/-- Rule R70: cutting a byte into the fields `zero`, `fn`, `dir` and laying them out again loses nothing, and each
field is the bit range the rule gives (bit 0 least significant). -/
def Obligations.CommandWordFields : Prop :=
  (∀ c : Byte, joinWord (splitWord c) = c) ∧ (∀ w : CmdWord, splitWord (joinWord w) = w) ∧
  ∀ c : Byte, (splitWord c).zero.toNat = c.toNat / 16 ∧ (splitWord c).fn.toNat = c.toNat / 2 % 8 ∧
    (splitWord c).dir.toNat = c.toNat % 2

/-! ### The step and the host's moves -/

/-- Rules R24 and R76: when the host's next move writes a byte to CMD that decodes to a command, the step is that
command's meaning, on the state from which the move has been taken. -/
def Obligations.StepRunsDecodedCommand : Prop :=
  ∀ (s : State) (c : Byte) (rest : List HostMove) (i : Instr),
    s.moves = .issue c :: rest → decodeByte c = .ok i → step s = exec i { s with moves := rest }

/-- Rule R76, the issue of a command: a byte that is no command ends with OLEN = 0 and ERR = 5; a command whose
rule raises kind K ends with OLEN = 0 and ERR = code(K); one whose rule returns `out` ends with OBUF = out and
ERR = 0; KEYBUF and IBUF keep their values; every byte and every state has one next state. -/
def Obligations.IssueEndsInOneNextState : Prop :=
  ∀ (c : Byte) (s : State),
    ((∀ i, c ≠ encodeByte i) → issue c s = .next { s with obuf := [], err := 5 }) ∧
    (∀ i, c = encodeByte i →
      (∀ k, resultOf i s = .error k → issue c s = .next { s with obuf := [], err := k.code }) ∧
      (∀ out, resultOf i s = .ok out → issue c s = .next { s with obuf := out, err := 0 })) ∧
    ∃ t, issue c s = .next t

/-- Rule R73: every reserved byte, in every state, ends with OLEN = 0 and ERR = 5, the inputs kept. -/
def Obligations.ReservedByteIsIllegalCommand : Prop :=
  ∀ (s : State) (c : Byte) (rest : List HostMove), s.moves = .issue c :: rest → ReservedByte c →
    step s = .next { s with obuf := [], err := 5, moves := rest }

/-- Rules R37, R60, R69, R81 and R210: what each host move other than an issue does, and that nothing happens
without a move (the model's convention for a step with no move pending, assumption 2). -/
def Obligations.HostMovesReplaceWholeBuffers : Prop :=
  ∀ (s : State) (rest : List HostMove),
    (∀ es, s.moves = .loadKey es :: rest → step s = .next { s with keybuf := es, moves := rest }) ∧
    (∀ bs, s.moves = .loadIn bs :: rest → step s = .next { s with ibuf := bs, moves := rest }) ∧
    (s.moves = .loadInObuf :: rest → step s = .next { s with ibuf := s.obuf, moves := rest }) ∧
    (∀ r, s.moves = .read r :: rest → step s = .next { s with moves := rest }) ∧
    (s.moves = .reset :: rest → step s = .next { State.reset with moves := rest }) ∧
    (s.moves = [] → step s = .next s)

/-- Rules R37, R69 and R210: a step always has a next state and takes one host move; only an issued byte or a
reset changes OBUF or ERR, only `LOADKEY` or reset changes KEYBUF, only `LOADIN` or reset changes IBUF. -/
def Obligations.OnlyTheNamedMovesChangeARegister : Prop :=
  ∀ s : State, ∃ t, step s = .next t ∧ t.moves = s.moves.tail ∧
    ((∀ c, s.moves.head? ≠ some (.issue c)) → s.moves.head? ≠ some .reset →
      t.obuf = s.obuf ∧ t.err = s.err ∧ ∀ j, obufRead t j = obufRead s j) ∧
    ((∀ es, s.moves.head? ≠ some (.loadKey es)) → s.moves.head? ≠ some .reset →
      t.keybuf = s.keybuf ∧ ∀ j, keyRead t j = keyRead s j) ∧
    ((∀ bs, s.moves.head? ≠ some (.loadIn bs)) → s.moves.head? ≠ some .loadInObuf →
      s.moves.head? ≠ some .reset → t.ibuf = s.ibuf ∧ ∀ j, ibufRead t j = ibufRead s j)

/-- Rules R21, R22, R23, R25 and R37: a host read of KLEN, ILEN or OLEN returns how many elements or bytes the buffer
holds, one of ERR the code it holds; a read of a buffer has a value just below its length register, and then the
element's; a read of OBUF at or beyond OLEN has none (U3, assumption 7). That a read returns an integer is the model's
choice (assumption 16). -/
def Obligations.HostReadsStopAtTheLength : Prop :=
  ∀ (s : State) (j : Nat),
    hostRead .klen s = some (s.keybuf.length : Int) ∧ hostRead .ilen s = some (s.ibuf.length : Int) ∧
    hostRead .olen s = some (s.obuf.length : Int) ∧ hostRead .err s = some (s.err.toNat : Int) ∧
    (∀ x, hostRead (.key j) s = some x ↔ ∃ h : j < s.klen, s.keybuf[j]'h = x) ∧
    (∀ x, hostRead (.ibyte j) s = some x ↔ ∃ h : j < s.ilen, ((s.ibuf[j]'h).toNat : Int) = x) ∧
    (∀ x, hostRead (.obyte j) s = some x ↔ ∃ h : j < s.olen, ((s.obuf[j]'h).toNat : Int) = x)

/-- Rule R39: the reset values, and that a command issued straight after reset ends with `InvalidKeyLength`, a
reserved code with `IllegalCommand`. -/
def Obligations.ResetLeavesEmptyBuffers : Prop :=
  State.reset.klen = 0 ∧ State.reset.keybuf = [] ∧ State.reset.ilen = 0 ∧ State.reset.ibuf = [] ∧
  State.reset.olen = 0 ∧ State.reset.obuf = [] ∧ State.reset.err = 0 ∧
  (∀ i, issue (encodeByte i) State.reset = .next { State.reset with err := 1 }) ∧
  (∀ c, ReservedByte c → issue c State.reset = .next { State.reset with err := 5 })

/-! ### Errors -/

/-- Rule R165: `validateKey` tests the length first, then the range of every element; and it is the first step of
every command, which on its failure ends with that kind and no output. -/
def Obligations.EveryCommandValidatesTheKeyFirst : Prop :=
  (∀ key : List Int,
    (key.length ≠ 8 → validateKey key = .error .invalidKeyLength) ∧
    (key.length = 8 → (∃ e ∈ key, e < 0 ∨ 255 < e) → validateKey key = .error .invalidKeyValue) ∧
    (key.length = 8 → (∀ e ∈ key, 0 ≤ e ∧ e ≤ 255) → validateKey key = .ok ())) ∧
  ∀ (i : Instr) (s : State) (k : ErrorKind), validateKey s.keybuf = .error k →
    exec i s = .next { s with obuf := [], err := k.code }

/-- Rule R188: a command reports the first failing test of the list: the code, KLEN, the elements, the data
length; and ERR = 0 when none fails (rule R189). -/
def Obligations.FirstFailingTestDecidesErr : Prop :=
  ∀ (c : Byte) (s : State), ∃ t, issue c s = .next t ∧
    t.err =
      (if c ∉ ([0x02, 0x04, 0x05, 0x06, 0x07] : List Byte) then 5
       else if s.klen ≠ 8 then 1
       else if (∃ e ∈ s.keybuf, e < 0 ∨ 255 < e) then 2
       else if c = 0x07 ∧ s.ilen % 8 ≠ 0 then 3
       else if (c = 0x04 ∨ c = 0x05) ∧ s.ilen ≠ 8 then 6
       else 0 : BitVec 8)

/-- Rule R59: a command either succeeds, with the whole output present and ERR = 0, or fails, with no output and
ERR naming the kind; there is nothing between. -/
def Obligations.CommandIsAllOrNothing : Prop :=
  ∀ (i : Instr) (s : State), ∃ t, exec i s = .next t ∧
    ((resultOf i s = .ok t.obuf ∧ t.err = 0) ∨
     (∃ k, resultOf i s = .error k ∧ t.obuf = [] ∧ t.err = k.code ∧ t.err ≠ 0))

/-- Rule R187: `MalformedBitLength` is unreachable. No command's rule raises it, no issued byte leaves its code in
ERR, and code 4 is not the code of any other kind. -/
def Obligations.BitLengthErrorIsUnreachable : Prop :=
  (∀ (i : Instr) (s : State), resultOf i s ≠ .error .malformedBitLength) ∧
  (∀ (c : Byte) (s : State), ∃ t, issue c s = .next t ∧ t.err ≠ 4) ∧
  ∀ k : ErrorKind, k.code = 4 → k = .malformedBitLength

/-- Rule R185: which kinds each command can end with, and that ERR never takes another value; the codes tell the
kinds apart. -/
def Obligations.ErrorKindsPerCommand : Prop :=
  (∀ (i : Instr) (s : State) (k : ErrorKind), resultOf i s = .error k →
    k = .invalidKeyLength ∨ k = .invalidKeyValue ∨ (k = .malformedCiphertext ∧ i = .decm) ∨
    (k = .malformedBlock ∧ (i = .encb ∨ i = .decb))) ∧
  (∀ k : ErrorKind, kindOfCode k.code = some k ∧ k.code ≠ 0 ∧ k.code.toNat ≤ 6)

/-- Rule R192: reissuing a command with the same buffers gives the same outcome again, whatever it was. -/
def Obligations.ReissueGivesTheSameOutcome : Prop :=
  ∀ (i : Instr) (s : State), ∃ t, exec i s = .next t ∧ exec i t = .next t

/-! ### Frames -/

/-- Rules R37, R68 and R76: no command changes KEYBUF, KLEN, IBUF or ILEN or any element or byte of them, nor the
host's later moves; OBUF with OLEN, and ERR, are the only destinations. -/
def Obligations.CommandsKeepTheInputs : Prop :=
  ∀ (i : Instr) (s : State), ∃ t, exec i s = .next t ∧
    t.keybuf = s.keybuf ∧ t.klen = s.klen ∧ t.ibuf = s.ibuf ∧ t.ilen = s.ilen ∧ t.moves = s.moves ∧
    (∀ j, keyRead t j = keyRead s j) ∧ (∀ j, ibufRead t j = ibufRead s j)

/-- Rules R35 and R191: a command's outcome is a function of the key and the data input alone; what OBUF, ERR held
before is of no account. KSCH ignores IBUF too (rule R56). -/
def Obligations.OutcomeDependsOnKeyAndInputOnly : Prop :=
  (∀ (i : Instr) (s s' : State), s.keybuf = s'.keybuf → s.ibuf = s'.ibuf →
    ∃ out e, exec i s = .next { s with obuf := out, err := e } ∧
      exec i s' = .next { s' with obuf := out, err := e }) ∧
  ∀ s s' : State, s.keybuf = s'.keybuf →
    ∃ out e, exec .ksch s = .next { s with obuf := out, err := e } ∧
      exec .ksch s' = .next { s' with obuf := out, err := e }

/-! ### What each command does -/

/-- Rule R124, KSCH: with a valid key, ERR = 0 and 96 bytes, subkey i at OBUF[6i..6i+5]; otherwise the error of the
key. IBUF is of no account. -/
def Obligations.KschOutputsTheSubkeys : Prop :=
  ∀ s : State,
    (ValidKey s.keybuf →
      ∃ out, exec .ksch s = .next { s with obuf := out, err := 0 } ∧ out.length = 96 ∧
        ∀ i : Fin 16, bitsToBytes (deriveSubkeys (keyBytes s.keybuf))[i] = .ok (memRead out (6 * i.val) 6)) ∧
    (s.klen ≠ 8 → exec .ksch s = .next { s with obuf := [], err := 1 }) ∧
    (s.klen = 8 → ¬ ValidKey s.keybuf → exec .ksch s = .next { s with obuf := [], err := 2 })

/-- Rule R151, ENCB: with a valid key and ILEN = 8, OBUF is the eight bytes of `transform` in direction ENCRYPT;
otherwise the errors in the rule's order. -/
def Obligations.EncbEncryptsTheBlock : Prop :=
  ∀ s : State,
    (ValidKey s.keybuf → s.ilen = 8 →
      ∃ out, transform s.ibuf (deriveSubkeys (keyBytes s.keybuf)) .encrypt = .ok out ∧ out.length = 8 ∧
        exec .encb s = .next { s with obuf := out, err := 0 }) ∧
    (s.klen ≠ 8 → exec .encb s = .next { s with obuf := [], err := 1 }) ∧
    (s.klen = 8 → ¬ ValidKey s.keybuf → exec .encb s = .next { s with obuf := [], err := 2 }) ∧
    (ValidKey s.keybuf → s.ilen ≠ 8 → exec .encb s = .next { s with obuf := [], err := 6 })

/-- Rule R152, DECB: as ENCB with direction DECRYPT, and never `MalformedCiphertext`. -/
def Obligations.DecbDecryptsTheBlock : Prop :=
  ∀ s : State,
    (ValidKey s.keybuf → s.ilen = 8 →
      ∃ out, transform s.ibuf (deriveSubkeys (keyBytes s.keybuf)) .decrypt = .ok out ∧ out.length = 8 ∧
        exec .decb s = .next { s with obuf := out, err := 0 }) ∧
    (s.klen ≠ 8 → exec .decb s = .next { s with obuf := [], err := 1 }) ∧
    (s.klen = 8 → ¬ ValidKey s.keybuf → exec .decb s = .next { s with obuf := [], err := 2 }) ∧
    (ValidKey s.keybuf → s.ilen ≠ 8 → exec .decb s = .next { s with obuf := [], err := 6 })

/-- Rules R166 and R167, ENCM: with a valid key and ANY input, OLEN = ILEN + 8 − ILEN % 8 and block b of OBUF is the
`transform` of block b of the padded text; otherwise the error of the key. -/
def Obligations.EncmEncryptsEveryPaddedBlock : Prop :=
  ∀ s : State,
    (ValidKey s.keybuf →
      ∃ out, exec .encm s = .next { s with obuf := out, err := 0 } ∧
        out.length = s.ilen + 8 - s.ilen % 8 ∧
        ∀ b, b < s.ilen / 8 + 1 →
          transform (memRead (textToBytes s.ibuf) (8 * b) 8) (deriveSubkeys (keyBytes s.keybuf)) .encrypt
            = .ok (memRead out (8 * b) 8)) ∧
    (s.klen ≠ 8 → exec .encm s = .next { s with obuf := [], err := 1 }) ∧
    (s.klen = 8 → ¬ ValidKey s.keybuf → exec .encm s = .next { s with obuf := [], err := 2 })

/-- Rules R168 and R169, DECM: with a valid key and ILEN a multiple of 8 (0 too), OBUF is the decrypted bytes
without the zero ones, in order, so no byte of it is zero; otherwise the errors in the rule's order. -/
def Obligations.DecmDropsEveryZeroByte : Prop :=
  ∀ s : State,
    (ValidKey s.keybuf → s.ilen % 8 = 0 →
      ∃ p : ByteSeq, p.length = s.ilen ∧
        (∀ b, b < s.ilen / 8 →
          transform (memRead s.ibuf (8 * b) 8) (deriveSubkeys (keyBytes s.keybuf)) .decrypt
            = .ok (memRead p (8 * b) 8)) ∧
        exec .decm s = .next { s with obuf := p.filter (· ≠ 0), err := 0 } ∧
        (p.filter (· ≠ 0)).length = s.ilen - p.count 0 ∧ ∀ x ∈ p.filter (· ≠ 0), x ≠ 0) ∧
    (s.klen ≠ 8 → exec .decm s = .next { s with obuf := [], err := 1 }) ∧
    (s.klen = 8 → ¬ ValidKey s.keybuf → exec .decm s = .next { s with obuf := [], err := 2 }) ∧
    (ValidKey s.keybuf → s.ilen % 8 ≠ 0 → exec .decm s = .next { s with obuf := [], err := 3 })

/-! ### The units -/

/-- Rule R90: bit 8k + j of `bytesToBits(bytes)` is `(bytes[k] / 2^(7-j)) % 2`. -/
def Obligations.BytesToBitsMostSignificantFirst : Prop :=
  ∀ (bytes : ByteSeq) (k j : Nat) (hk : k < bytes.length), j < 8 →
    ((bytesToBits bytes).getMsbD (8 * k + j)).toNat = bytes[k].toNat / 2 ^ (7 - j) % 2

/-- Rule R91: `bitsToBytes` fails just on a bit count not divisible by 8; otherwise byte k is the value of bits
8k..8k+7, and the two conversions are inverse. -/
def Obligations.BitsToBytesInvertsBytesToBits : Prop :=
  (∀ (m : Nat) (v : BitVec m), m % 8 ≠ 0 → bitsToBytes v = .error .malformedBitLength) ∧
  (∀ (m : Nat) (v : BitVec m), m % 8 = 0 →
    ∃ bytes : ByteSeq, bitsToBytes v = .ok bytes ∧ bytes.length = m / 8 ∧
      (∀ (k : Nat) (hk : k < bytes.length),
        bytes[k].toNat = ((List.range 8).map fun j => (v.getMsbD (8 * k + j)).toNat * 2 ^ (7 - j)).sum) ∧
      ∀ i, i < m → (bytesToBits bytes).getMsbD i = v.getMsbD i) ∧
  (∀ bytes : ByteSeq, bitsToBytes (bytesToBits bytes) = .ok bytes)

/-- Rule R92: `textToBytes` keeps every character's ordinal and appends `8 - (len % 8)` zero bytes, 1 to 8 of
them. -/
def Obligations.TextIsPaddedWithZeros : Prop :=
  ∀ text : ByteSeq,
    (textToBytes text).length = text.length + 8 - text.length % 8 ∧
    (∀ k, k < text.length → (textToBytes text)[k]? = text[k]?) ∧
    (∀ k, text.length ≤ k → k < (textToBytes text).length → (textToBytes text)[k]? = some 0)

/-- Rule R95, the padding arithmetic: 1 to 8 bytes, to a whole number of blocks, `n / 8 + 1` of them. -/
def Obligations.PaddingArithmetic : Prop :=
  ∀ n : Nat, 1 ≤ padLength n ∧ padLength n ≤ 8 ∧ (n + padLength n) % 8 = 0 ∧
    n + padLength n = 8 * (n / 8 + 1) ∧ (n + padLength n) / 8 = n / 8 + 1 ∧ 1 ≤ (n + padLength n) / 8

/-- Rule R96: unpadding the padded text gives the text just when it has no zero character, and otherwise the text
with those characters removed. -/
def Obligations.UnpaddingDropsTheZeroCharacters : Prop :=
  ∀ text : ByteSeq,
    bytesToText (textToBytes text) = text.filter (· ≠ 0) ∧
    (bytesToText (textToBytes text) = text ↔ ∀ c ∈ text, c ≠ 0)

/-- Rule R100: output bit i of `permuteBits` is the input bit at `table[i] - 1`, for every table and length; the
output depends on the bits the table names only. -/
def Obligations.PermuteBitsReadsTheTable : Prop :=
  ∀ (m n : Nat) (bits : BitVec m) (table : PermTable m n),
    (∀ (i : Nat) (hi : i < n), (permuteBits bits table).getMsbD i = bits.getMsbD (table.entries[i] - 1)) ∧
    ∀ bits' : BitVec m, (∀ p ∈ table.entries.toList, bits.getMsbD (p - 1) = bits'.getMsbD (p - 1)) →
      permuteBits bits table = permuteBits bits' table

/-- Rule R101: `permuteBytes` fails just on a table whose length is not divisible by 8; otherwise the bits of its
result are the permuted bits of its input. -/
def Obligations.PermuteBytesThroughBits : Prop :=
  ∀ (n : Nat) (bytes : ByteSeq) (table : PermTable (8 * bytes.length) n),
    (n % 8 ≠ 0 → permuteBytes bytes table = .error .malformedBitLength) ∧
    (n % 8 = 0 → ∃ out : ByteSeq, permuteBytes bytes table = .ok out ∧ out.length = n / 8 ∧
      ∀ (i : Nat) (hi : i < n), (bytesToBits out).getMsbD i = (bytesToBits bytes).getMsbD (table.entries[i] - 1))

/-- Rule R109 (b): FP is the inverse of IP, both ways round, on every 64-bit vector. -/
def Obligations.FinalPermutationInvertsInitial : Prop :=
  ∀ v : Block, permuteBits (permuteBits v IP) FP = v ∧ permuteBits (permuteBits v FP) IP = v

/-- Rule R117: `rotl28` bit by bit and as a number; rotating twice by 1 is rotating by 2. -/
def Obligations.RotationOfTheKeyHalf : Prop :=
  ∀ v : KeyHalf,
    (∀ n j, j < 28 → (rotl28 v n).getMsbD j = v.getMsbD ((j + n) % 28)) ∧
    (∀ n, n = 1 ∨ n = 2 → (rotl28 v n).toNat = v.toNat * 2 ^ n % 2 ^ 28 + v.toNat / 2 ^ (28 - n)) ∧
    rotl28 (rotl28 v 1) 1 = rotl28 v 2

/-- Rules R115, R116, R119 and R120: the rotations accumulate, so subkey i is PC2 of the initial halves rotated by the
total of SHIFTS[0..i], the totals being the rule's list; after round 15 the halves are back where they were. The
initial halves are the key's bits at the positions PC1 names, its first 28 entries for C and its last 28 for D; each
half rotates by itself; PC2 selects from `C ++ D`. -/
def Obligations.KeyRotationsAccumulate : Prop :=
  ∀ key : ByteSeq, ∀ i : Fin 16,
    (deriveSubkeys key)[i] =
      subkeyOf (rotateKeyState
        ((#v[1, 2, 4, 6, 8, 10, 12, 14, 15, 17, 19, 21, 23, 25, 27, 28] : Vector Nat 16)[i])
        (initialKeyState (blockVector key))) ∧
    rotateKeyState 28 (initialKeyState (blockVector key)) = initialKeyState (blockVector key) ∧
    (key.length = 8 → ∀ (j : Nat) (hj : j < 28),
      (initialKeyState (blockVector key)).c.getMsbD j = (bytesToBits key).getMsbD (PC1.entries[j] - 1) ∧
      (initialKeyState (blockVector key)).d.getMsbD j = (bytesToBits key).getMsbD (PC1.entries[28 + j] - 1)) ∧
    (∀ (n : Nat) (k : KeyState), (rotateKeyState n k).c = rotl28 k.c n ∧ (rotateKeyState n k).d = rotl28 k.d n) ∧
    ∀ (k : KeyState) (j : Nat) (hj : j < 48),
      (subkeyOf k).getMsbD j = (k.c ++ k.d : BitVec 56).getMsbD (PC2.entries[j] - 1)

/-- Rule R121's corner cases: a key whose elements are all 0 or 1 gives sixteen all-zero subkeys, one whose
elements are all 254 or 255 sixteen all-one subkeys. -/
def Obligations.ConstantKeysGiveConstantSubkeys : Prop :=
  ∀ key : List Int, key.length = 8 → ∀ i : Fin 16,
    ((∀ e ∈ key, e = 0 ∨ e = 1) → (deriveSubkeys (keyBytes key))[i] = 0) ∧
    ((∀ e ∈ key, e = 254 ∨ e = 255) → (deriveSubkeys (keyBytes key))[i] = 0xFFFFFFFFFFFF)

/-- Rule R139: the value is the entry at row `2*g[0] + g[5]` and column `8*g[1] + 4*g[2] + 2*g[3] + g[4]`. -/
def Obligations.SboxLookupRowAndColumn : Prop :=
  ∀ (box : Fin 8) (g : BitVec 6) (row : Fin 4) (col : Fin 16),
    row.val = 2 * (g.getMsbD 0).toNat + (g.getMsbD 5).toNat →
    col.val = 8 * (g.getMsbD 1).toNat + 4 * (g.getMsbD 2).toNat + 2 * (g.getMsbD 3).toNat
      + (g.getMsbD 4).toNat →
    sboxLookup box g = S[box][row][col]

/-- Rule R140: bits 4j..4j+3 of `substitute(x)` are the value of box j at bits 6j..6j+5 of x, most significant bit
first. -/
def Obligations.SubstituteGroupByGroup : Prop :=
  ∀ (x : BitVec 48) (j : Fin 8),
    (subvec (substitute x) (4 * j.val) 4).toNat = (sboxLookup j (subvec x (6 * j.val) 6)).val

/-- Rule R145 with R105: bit i of `feistelF(R, K)` is bit `P[i] - 1` of the substituted value of x, where x is the
expanded half XOR the subkey: bit 6j + t of x is bit t of row j of E, bit `4j + t - 1` of R round the ends, XOR bit
6j + t of K. The subkey enters through that XOR only. -/
def Obligations.RoundFunctionBitByBit : Prop :=
  (∀ (r : Half) (k : Subkey), ∃ x : BitVec 48,
    (∀ (i : Nat) (hi : i < 48), x.getMsbD i = (r.getMsbD (E.entries[i] - 1) ^^ k.getMsbD i)) ∧
    (∀ j t : Nat, j < 8 → t < 6 →
      x.getMsbD (6 * j + t) = (r.getMsbD ((4 * j + t + 31) % 32) ^^ k.getMsbD (6 * j + t))) ∧
    ∀ (i : Nat) (hi : i < 32), (feistelF r k).getMsbD i = (substitute x).getMsbD (P.entries[i] - 1)) ∧
  ∀ (r r' : Half) (k k' : Subkey), permuteBits r E ^^^ k = permuteBits r' E ^^^ k' → feistelF r k = feistelF r' k'

/-- Rules R149 and R150 with R146 and R148: `transform` of a block of eight bytes is the sixteen rounds between IP and
FP. The halves start as the block's bits at the first and the last 32 positions IP names; round r makes them (R, f XOR L) with
subkey r encrypting and 15 - r decrypting; the result is FP of the last right half followed by the last left half. -/
def Obligations.TransformIsSixteenRoundsBetweenIPAndFP : Prop :=
  ∀ (block : ByteSeq) (sk : Subkeys) (d : Direction), block.length = 8 → ∃ h : Nat → Halves,
    (∀ (i : Nat) (hi : i < 32),
      (h 0).l.getMsbD i = (bytesToBits block).getMsbD (IP.entries[i] - 1) ∧
      (h 0).r.getMsbD i = (bytesToBits block).getMsbD (IP.entries[32 + i] - 1)) ∧
    (∀ r : Fin 16, (h (r.val + 1)).l = (h r.val).r ∧
      (h (r.val + 1)).r = feistelF (h r.val).r
        (match d with
          | .encrypt => sk[r.val]
          | .decrypt => sk[15 - r.val]) ^^^ (h r.val).l) ∧
    ∃ out : ByteSeq, transform block sk d = .ok out ∧ out.length = 8 ∧
      ∀ (i : Nat) (hi : i < 64),
        (bytesToBits out).getMsbD i = ((h 16).r ++ (h 16).l : BitVec 64).getMsbD (FP.entries[i] - 1)

/-- Rule R147: XOR of two 32-bit halves position by position is their XOR byte by byte. -/
def Obligations.ByteWiseXorIsBitWise : Prop :=
  ∀ u v : Half, ∃ us vs : ByteSeq, bitsToBytes u = .ok us ∧ bitsToBytes v = .ok vs ∧
    bitsToBytes (u ^^^ v) = .ok (List.zipWith (· ^^^ ·) us vs)

/-- Rule R148: the direction is used for the subkey index only, so decrypting is encrypting with the list read from
its end. -/
def Obligations.DirectionOnlyTurnsTheSubkeysRound : Prop :=
  ∀ (b : ByteSeq) (sk : Subkeys), transform b sk .decrypt = transform b sk.reverse .encrypt

/-- Rule R154, the first fact: a round with the same subkey on the swapped result of a round gives the swapped
input, whatever the round function. -/
def Obligations.SwappedRoundUndoesTheRound : Prop :=
  ∀ (h : Halves) (k : Subkey),
    feistelRound { l := (feistelRound h k).r, r := (feistelRound h k).l } k = { l := h.r, r := h.l }

/-- Rule R154: the two directions of `transform` are inverse, for every list of sixteen subkeys and every block of
eight bytes. -/
def Obligations.DecryptionInvertsEncryption : Prop :=
  ∀ (sk : Subkeys) (block : ByteSeq), block.length = 8 →
    (∃ c : ByteSeq, c.length = 8 ∧ transform block sk .encrypt = .ok c ∧ transform c sk .decrypt = .ok block) ∧
    (∃ c : ByteSeq, c.length = 8 ∧ transform block sk .decrypt = .ok c ∧ transform c sk .encrypt = .ok block)

/-! ### The whole machine -/

/-- Rule R171 on the machine: for every valid key and every input, ENCM, then OBUF copied to IBUF by the host, then
DECM, ends with ERR = 0 and the input without its zero characters; so with the input itself when it has none. -/
def Obligations.MessageRoundTrip : Prop :=
  ∀ (s : State) (rest : List HostMove), ValidKey s.keybuf →
    s.moves = [mnemonicMove .encm, .loadInObuf, mnemonicMove .decm] ++ rest →
    ∃ t : State, core.run 3 s = .next t ∧ t.err = 0 ∧ t.keybuf = s.keybuf ∧ t.moves = rest ∧
      t.obuf = s.ibuf.filter (· ≠ 0) ∧ ((∀ c ∈ s.ibuf, c ≠ 0) → t.obuf = s.ibuf)

/-- Rules R152 and R154 on the machine: DECB after ENCB with the same key returns the original block, and so does
ENCB after DECB. -/
def Obligations.BlockRoundTrip : Prop :=
  ∀ (s : State) (rest : List HostMove), ValidKey s.keybuf → s.ilen = 8 →
    (s.moves = [mnemonicMove .encb, .loadInObuf, mnemonicMove .decb] ++ rest →
      ∃ t : State, core.run 3 s = .next t ∧ t.err = 0 ∧ t.obuf = s.ibuf ∧ t.keybuf = s.keybuf ∧ t.moves = rest) ∧
    (s.moves = [mnemonicMove .decb, .loadInObuf, mnemonicMove .encb] ++ rest →
      ∃ t : State, core.run 3 s = .next t ∧ t.err = 0 ∧ t.obuf = s.ibuf ∧ t.keybuf = s.keybuf ∧ t.moves = rest)

/-- Rule R82, the document's calls as host moves: LOADKEY, LOADIN and a command end with the result of the call in
OBUF and ERR = 0, or, where the call raises a kind, with that kind in ERR and no output. -/
def Obligations.CallsAreHostSequences : Prop :=
  ∀ (s : State) (key : List Int) (data : ByteSeq) (rest : List HostMove),
    (s.moves = [.loadKey key, .loadIn data, mnemonicMove .encm] ++ rest → ∃ t, core.run 3 s = .next t ∧
      (∀ out, encryptMessage key data = .ok out → t.obuf = out ∧ t.err = 0) ∧
      (∀ k, encryptMessage key data = .error k → t.obuf = [] ∧ t.err = k.code)) ∧
    (s.moves = [.loadKey key, .loadIn data, mnemonicMove .decm] ++ rest → ∃ t, core.run 3 s = .next t ∧
      (∀ out, decryptMessage key data = .ok out → t.obuf = out ∧ t.err = 0) ∧
      (∀ k, decryptMessage key data = .error k → t.obuf = [] ∧ t.err = k.code)) ∧
    (ValidKey key → data.length = 8 → s.moves = [.loadKey key, .loadIn data, mnemonicMove .encb] ++ rest →
      ∃ t, core.run 3 s = .next t ∧ t.err = 0 ∧
        transform data (deriveSubkeys (keyBytes key)) .encrypt = .ok t.obuf) ∧
    (ValidKey key → data.length = 8 → s.moves = [.loadKey key, .loadIn data, mnemonicMove .decb] ++ rest →
      ∃ t, core.run 3 s = .next t ∧ t.err = 0 ∧
        transform data (deriveSubkeys (keyBytes key)) .decrypt = .ok t.obuf) ∧
    (ValidKey key → s.moves = [.loadKey key, mnemonicMove .ksch] ++ rest →
      ∃ t, core.run 2 s = .next t ∧ t.err = 0 ∧ subkeyBytes (deriveSubkeys (keyBytes key)).toList = .ok t.obuf)

/-- Rule R174: OLEN after ENCM, and OLEN after DECM on the output of ENCM with the same key. -/
def Obligations.MessageLengthLaws : Prop :=
  ∀ (s : State) (rest : List HostMove), ValidKey s.keybuf →
    s.moves = [mnemonicMove .encm, .loadInObuf, mnemonicMove .decm] ++ rest →
    (∃ t, core.run 1 s = .next t ∧ t.olen = 8 * (s.ilen / 8 + 1)) ∧
    (∃ t, core.run 3 s = .next t ∧ t.olen = s.ilen - s.ibuf.count 0)

/-- Rule R172: with a valid key, encrypting the empty text yields exactly one block, the transform of eight zero
bytes, and decrypting it yields the empty text with ERR = 0. -/
def Obligations.EmptyTextIsOneBlock : Prop :=
  ∀ (s : State) (rest : List HostMove), ValidKey s.keybuf → s.ibuf = [] →
    s.moves = [mnemonicMove .encm, .loadInObuf, mnemonicMove .decm] ++ rest →
    (∃ t, core.run 1 s = .next t ∧ t.err = 0 ∧ t.olen = 8 ∧
      transform (List.replicate 8 0) (deriveSubkeys (keyBytes s.keybuf)) .encrypt = .ok t.obuf) ∧
    (∃ t, core.run 3 s = .next t ∧ t.err = 0 ∧ t.obuf = [])

/-- Rule R173: under one key, equal blocks of the padded text give equal blocks of the ciphertext, within one
message and across two; and the last block of a text of 8k characters is the encryption of the empty text. -/
def Obligations.EqualBlocksEncryptEqually : Prop :=
  ∀ s s' : State, ValidKey s.keybuf → s.keybuf = s'.keybuf →
    ∃ t t', exec .encm s = .next t ∧ exec .encm s' = .next t' ∧
      (∀ a b, a < s.ilen / 8 + 1 → b < s'.ilen / 8 + 1 →
        memRead (textToBytes s.ibuf) (8 * a) 8 = memRead (textToBytes s'.ibuf) (8 * b) 8 →
        memRead t.obuf (8 * a) 8 = memRead t'.obuf (8 * b) 8) ∧
      (s.ilen % 8 = 0 → s'.ibuf = [] → memRead t.obuf s.ilen 8 = t'.obuf)

/-- Rule R65 on the model's own functions (assumption 10): `transformInOrder`, which takes the blocks of a message in
any order over any output buffer of its length, answers what `transformBlocks` answers, which takes them in index
order. -/
def Obligations.BlockOrderIsUnobservable : Prop :=
  ∀ (sk : Subkeys) (d : Direction) (m : ByteSeq) (order : List Nat) (out0 : ByteSeq),
    m.length % 8 = 0 → order.Perm (List.range (m.length / 8)) → out0.length = m.length →
    ∃ out, transformBlocks sk d (splitBlocks m) = .ok out ∧ transformInOrder sk d m order out0 = .ok out

/-- Rules R28, R29, R30 and R32 at the registers: a key round rotates C and D by SHIFTS[i], writes SK[i] and no
other subkey, counts i and leaves the rest; a Feistel round writes L and R from the subkey of its round and
direction, counts r and leaves the rest, so that no block changes a subkey. -/
def Obligations.InnerStepsWriteTheirRegistersOnly : Prop :=
  (∀ (w : Working) (h : w.i < 16),
    (keyRoundStep w).c = rotl28 w.c SHIFTS[w.i] ∧ (keyRoundStep w).d = rotl28 w.d SHIFTS[w.i] ∧
    (keyRoundStep w).sk[w.i] = permuteBits ((keyRoundStep w).c ++ (keyRoundStep w).d : BitVec 56) PC2 ∧
    (∀ j : Fin 16, j.val ≠ w.i → (keyRoundStep w).sk[j] = w.sk[j]) ∧ (keyRoundStep w).i = w.i + 1 ∧
    (keyRoundStep w).k64 = w.k64 ∧ (keyRoundStep w).l = w.l ∧ (keyRoundStep w).r = w.r ∧
    (keyRoundStep w).b = w.b ∧ (keyRoundStep w).rd = w.rd) ∧
  ∀ (w : Working) (dir : Direction) (h : w.rd < 16),
    (roundStep dir w).l = w.r ∧
    (roundStep dir w).r = feistelF w.r w.sk[subkeyIndex ⟨w.rd, h⟩ dir] ^^^ w.l ∧
    (roundStep dir w).rd = w.rd + 1 ∧ (roundStep dir w).sk = w.sk ∧ (roundStep dir w).k64 = w.k64 ∧
    (roundStep dir w).c = w.c ∧ (roundStep dir w).d = w.d ∧ (roundStep dir w).i = w.i ∧
    (roundStep dir w).b = w.b

/-- Rules R27 to R32, R35 and R40: each command run register by register over the working state answers what the
command answers, WHATEVER the working registers and counters held before; so no rule reads them before writing
them, and nothing of an earlier command is left in the result. -/
def Obligations.SequencerIgnoresOldWorkingState : Prop :=
  ∀ (i : Instr) (s : State) (w : Working), sequencedResult i s w = resultOf i s

/-- Rule R110: the result of every command is independent of the least significant bit of each key element. -/
def Obligations.ParityBitsAreIgnored : Prop :=
  (∀ k k' : List Int, ValidKey k → ValidKey k' → SameButLowBits k k' →
    deriveSubkeys (keyBytes k) = deriveSubkeys (keyBytes k')) ∧
  ∀ (i : Instr) (s s' : State), ValidKey s.keybuf → ValidKey s'.keybuf → SameButLowBits s.keybuf s'.keybuf →
    s.ibuf = s'.ibuf →
    ∃ out e, exec i s = .next { s with obuf := out, err := e } ∧
      exec i s' = .next { s' with obuf := out, err := e }

/-- Rules R185 and R191: the reset state meets the interface invariant. -/
def Obligations.InterfaceInvariantAtReset : Prop := State.Inv State.reset

/-- Rules R185, R187 and R191: every step keeps the interface invariant: ERR is 0 or the code of a kind a command
can end with, and no output is readable beside an error. -/
def Obligations.InterfaceInvariantKept : Prop :=
  ∀ s t : State, State.Inv s → step s = .next t → State.Inv t

/-- Rule R8: on an implementation whose parameters meet the rule's constraints, a host move that can be presented
takes a state that fits to a state that fits; no output ever overflows OBUF. -/
def Obligations.OutputNeverOverflows : Prop :=
  ∀ (p : Config.Params) (s t : State), p.wf = true → State.Fits p s →
    (∀ m, s.moves.head? = some m → Presentable p s m) → step s = .next t → State.Fits p t

/-- Rules R8, R12 and R21: on an implementation whose parameters meet the constraints, the elements that can be
presented are exactly the two's-complement readings, and every integer from −1 to 256 is one of them. -/
def Obligations.KeyElementsAreSignedIntegers : Prop :=
  ∀ p : Config.Params, p.wf = true →
    (∀ e : Int, p.elemFits e = true ↔ ∃ w : BitVec p.keyElemBits, sextElem w = e) ∧
    ∀ e : Int, -1 ≤ e → e ≤ 256 → p.elemFits e = true

/-- Rule R84: the line-oriented form of a byte sequence is integers 0..255 and parses back without loss. -/
def Obligations.LinesRoundTrip : Prop :=
  ∀ bytes : ByteSeq, (∀ x ∈ toLines bytes, 0 ≤ x ∧ x ≤ 255) ∧ ofLines (toLines bytes) = some bytes

/-- Rule R94: a text can be presented just when every ordinal fits a byte, and then the step of presenting it leaves
the ordinals in IBUF and every other register as it was. -/
def Obligations.TextCarriesItsOrdinals : Prop :=
  ∀ text : List Char,
    ((∀ c ∈ text, c.toNat ≤ 255) →
      ∃ (m : HostMove) (bs : ByteSeq), textMove text = some m ∧ bs.map BitVec.toNat = text.map Char.toNat ∧
        ∀ (s : State) (rest : List HostMove), s.moves = m :: rest →
          step s = .next { s with ibuf := bs, moves := rest }) ∧
    ((∃ c ∈ text, 255 < c.toNat) → textMove text = none)
end

