-- ==== Sys2Proof/Laws/Bits.lean ====
section
/-! SUPPORT. What the bit-sequence operations of Machine/Bits.lean do, bit by bit. -/
namespace Sys2Proof.Machine

@[simp] theorem length_bitsOf {n : Nat} (v : BitVec n) : (bitsOf v).length = n := by simp [bitsOf]

theorem getElem_bitsOf {n : Nat} (v : BitVec n) (i : Nat) (h : i < (bitsOf v).length) :
    (bitsOf v)[i] = v.getMsbD i := by simp [bitsOf]

/-- Bit i of the vector made from exactly `n` bits is bit i of the list. -/
theorem getMsbD_ofBits {n : Nat} (bs : List Bool) (hlen : bs.length = n) (i : Nat) :
    (ofBits n bs).getMsbD i = bs.getD i false := by
  subst hlen
  simp [ofBits]

/-- Bit i of `v[a..a+n-1]` is bit a + i of v. -/
theorem getMsbD_subvec {m : Nat} (v : BitVec m) (a n i : Nat) (hi : i < n) (h : a + n ≤ m) :
    (subvec v a n).getMsbD i = v.getMsbD (a + i) := by
  have e1 : m - (m - (a + n) + n - i) = a + i := by omega
  have e2 : m - (a + n) + n - i ≤ m := by omega
  simp [subvec, BitVec.getMsbD_extractLsb', hi, e1, e2]

theorem ofBits_bitsOf {n : Nat} (v : BitVec n) : ofBits n (bitsOf v) = v := by
  apply BitVec.eq_of_getMsbD_eq
  intro i hi
  rw [getMsbD_ofBits _ (length_bitsOf v)]
  simp [List.getD_eq_getElem?_getD, bitsOf, hi]

/-- The front of a concatenation. -/
theorem subvec_append_left {a b : Nat} (u : BitVec a) (v : BitVec b) : subvec (u ++ v) 0 a = u := by
  apply BitVec.eq_of_getMsbD_eq
  intro i hi
  rw [getMsbD_subvec _ _ _ _ hi (by omega), BitVec.getMsbD_append]
  simp only [Nat.zero_add]
  rw [if_neg (by omega)]

/-- The back of a concatenation. -/
theorem subvec_append_right {a b : Nat} (u : BitVec a) (v : BitVec b) : subvec (u ++ v) a b = v := by
  apply BitVec.eq_of_getMsbD_eq
  intro i hi
  rw [getMsbD_subvec _ _ _ _ hi (by omega), BitVec.getMsbD_append]
  rw [if_pos (by omega)]
  congr 1
  omega

/-- A vector is its front and its back. -/
theorem append_subvec {a b : Nat} (v : BitVec (a + b)) : subvec v 0 a ++ subvec v a b = v := by
  apply BitVec.eq_of_getMsbD_eq
  intro i hi
  rw [BitVec.getMsbD_append]
  split
  · rw [getMsbD_subvec _ _ _ _ (by omega) (by omega)]
    congr 1
    omega
  · rw [getMsbD_subvec _ _ _ _ (by omega) (by omega)]
    simp

theorem length_flatMap_uniform {α β : Type} (f : α → List β) (c : Nat) (hf : ∀ a, (f a).length = c)
    (l : List α) : (l.flatMap f).length = c * l.length := by
  induction l with
  | nil => rfl
  | cons a l ih => rw [List.flatMap_cons, List.length_append, ih, hf, List.length_cons]; ring

/-- Entry c*k + j of a concatenation of pieces of length c is entry j of piece k. -/
theorem getD_flatMap_uniform {α β : Type} (f : α → List β) (c : Nat) (hf : ∀ a, (f a).length = c)
    (l : List α) (x : β) (k j : Nat) (hk : k < l.length) (hj : j < c) :
    (l.flatMap f).getD (c * k + j) x = (f l[k]).getD j x := by
  induction l generalizing k with
  | nil => simp at hk
  | cons a l ih =>
    have ha := hf a
    simp only [List.getD_eq_getElem?_getD] at ih ⊢
    rw [List.flatMap_cons]
    cases k with
    | zero => rw [List.getElem?_append_left (by omega)]; simp
    | succ k =>
      rw [List.getElem?_append_right (by rw [ha, Nat.mul_succ]; omega), ha,
        show c * (k + 1) + j - c = c * k + j by rw [Nat.mul_succ]; omega, ih k (by simpa using hk)]
      rfl

end Sys2Proof.Machine
end

