-- ==== Sys2Proof/Laws/Decode.lean ====
section
/-! SUPPORT. The decoder on all 256 bytes. -/
namespace Sys2Proof

/-- What the decoder reads from each byte. -/
theorem decodeByte_toOption : ∀ c : Byte, (decodeByte c).toOption =
    if c = 2 then some Instr.ksch else if c = 4 then some .encb else if c = 5 then some .decb
    else if c = 6 then some .encm else if c = 7 then some .decm else none := by
  decide +kernel

/-- Every command's byte decodes to it. -/
theorem decodeByte_encodeByte (i : Instr) : decodeByte (encodeByte i) = .ok i := by
  cases i <;> rfl

/-- No two rows of the opcode table match one byte. -/
theorem opcodeTable_rows_disjoint :
    opcodeTable.Pairwise fun a b => a.pattern &&& b.mask ≠ b.pattern ∧ b.pattern &&& a.mask ≠ a.pattern := by
  decide

end Sys2Proof
end

