-- ==== Sys2Proof/Laws/Units.lean ====
section
/-! SUPPORT. One lemma for what each unit's operation does, so that no later proof unfolds it. -/
namespace Sys2Proof.Machine

/-! ### BitConverter -/

@[simp] theorem length_byteBits (b : Byte) : (byteBits b).length = 8 := by simp [byteBits]

theorem length_flatMap_byteBits (bytes : ByteSeq) : (bytes.flatMap byteBits).length = 8 * bytes.length :=
  length_flatMap_uniform _ _ length_byteBits _

/-- Bit 8k + j of `bytesToBits` is bit j of byte k. -/
theorem getMsbD_bytesToBits (bytes : ByteSeq) (k j : Nat) (hk : k < bytes.length) (hj : j < 8) :
    (bytesToBits bytes).getMsbD (8 * k + j) = bytes[k].getMsbD j := by
  rw [bytesToBits, getMsbD_ofBits _ (length_flatMap_byteBits bytes),
    getD_flatMap_uniform byteBits 8 length_byteBits _ _ _ _ hk hj]
  simp only [byteBits, List.getD_eq_getElem?_getD, List.getElem?_map, List.getElem?_range, hj,
    BitVec.getMsbD, BitVec.getLsbD, Nat.testBit_eq_decide_div_mod_eq, decide_true, Bool.true_and]
  rfl

/-- `bitsToBytes` on a bit count divisible by 8. -/
theorem bitsToBytes_of_dvd {m : Nat} (v : BitVec m) (h : m % 8 = 0) :
    bitsToBytes v = .ok ((List.range (m / 8)).map fun k => subvec v (8 * k) 8) := by
  unfold bitsToBytes
  rw [if_neg (by omega)]

/-- The padded length is a multiple of 8, one block more than the whole blocks of the text. -/
theorem padLength_mod (n : Nat) : (n + padLength n) % 8 = 0 ∧ (n + padLength n) / 8 = n / 8 + 1 := by
  unfold padLength
  omega

theorem length_textToBytes (t : ByteSeq) : (textToBytes t).length = t.length + padLength t.length := by
  simp [textToBytes]

/-! ### PermutationEngine and KeySchedule -/

/-- Bit i of `permuteBits`. -/
theorem getMsbD_permuteBits {m n : Nat} (bits : BitVec m) (T : PermTable m n) (i : Nat) (hi : i < n) :
    (permuteBits bits T).getMsbD i = bits.getMsbD (T.entries[i] - 1) := by
  rw [permuteBits, getMsbD_ofBits _ (by simp)]
  simp [List.getD_eq_getElem?_getD, hi]

/-- Bit j of `rotl28`. -/
theorem getMsbD_rotl28 (v : KeyHalf) (n j : Nat) (hj : j < 28) :
    (rotl28 v n).getMsbD j = v.getMsbD ((j + n) % 28) := by
  rw [rotl28, getMsbD_ofBits _ (by simp)]
  simp [List.getD_eq_getElem?_getD, hj]

/-- Two rotations are one by the sum. -/
theorem rotl28_rotl28 (v : KeyHalf) (a b : Nat) : rotl28 (rotl28 v a) b = rotl28 v (a + b) := by
  apply BitVec.eq_of_getMsbD_eq
  intro j hj
  rw [getMsbD_rotl28 _ _ _ hj, getMsbD_rotl28 _ _ _ (Nat.mod_lt _ (by decide)), getMsbD_rotl28 _ _ _ hj]
  congr 1
  omega

theorem rotateKeyState_rotateKeyState (k : KeyState) (a b : Nat) :
    rotateKeyState b (rotateKeyState a k) = rotateKeyState (a + b) k := by
  simp [rotateKeyState, rotl28_rotl28]

/-- Entry i of the subkey list is taken from the state rotated by the sum of the first i + 1 shifts. -/
theorem getElem_keyRounds (ns : List Nat) (k : KeyState) (i : Nat) (h : i < (keyRounds ns k).length) :
    (keyRounds ns k)[i] = subkeyOf (rotateKeyState (ns.take (i + 1)).sum k) := by
  induction ns generalizing k i with
  | nil => simp [keyRounds] at h
  | cons n ns ih =>
    cases i with
    | zero => simp [keyRounds]
    | succ i =>
      simp only [keyRounds, List.getElem_cons_succ]
      rw [ih]
      simp [rotateKeyState_rotateKeyState]

/-- The vector of an eight-byte block has the bits of its bytes. -/
theorem getMsbD_blockVector (bytes : ByteSeq) (h : bytes.length = 8) (i : Nat) (hi : i < 64) :
    (blockVector bytes).getMsbD i = (bytesToBits bytes).getMsbD i := by
  rw [blockVector, BitVec.getMsbD_setWidth, show i + 8 * bytes.length - 64 = i by omega]
  simp
  omega

/-! ### BlockCipher -/

/-- `transform` answers eight bytes on every block, subkey list and direction. -/
theorem transform_ok (b : ByteSeq) (sk : Subkeys) (d : Direction) :
    ∃ c : ByteSeq, c.length = 8 ∧ transform b sk d = .ok c := by
  unfold transform
  rw [bitsToBytes_of_dvd _ rfl]
  exact ⟨_, by simp, rfl⟩

/-- The encrypting rounds run over the subkeys in list order. -/
theorem sixteenRounds_encrypt (sk : Subkeys) (h : Halves) :
    sixteenRounds sk .encrypt h = sk.toList.foldl feistelRound h := by
  unfold sixteenRounds
  rw [show sk.toList = (List.finRange 16).map (fun r => sk[subkeyIndex r .encrypt]) from ?_, List.foldl_map]
  apply List.ext_getElem
  · simp
  · intro i h1 h2
    simp [subkeyIndex]

/-- The decrypting rounds run over the subkeys in reverse order. -/
theorem sixteenRounds_decrypt (sk : Subkeys) (h : Halves) :
    sixteenRounds sk .decrypt h = sk.toList.reverse.foldl feistelRound h := by
  unfold sixteenRounds
  rw [show sk.toList.reverse = (List.finRange 16).map (fun r => sk[subkeyIndex r .decrypt]) from ?_,
    List.foldl_map]
  apply List.ext_getElem
  · simp
  · intro i h1 h2
    simp [subkeyIndex]

/-! ### ECBProcessor -/

/-- The three outcomes of `validateKey`. -/
theorem validateKey_cases (key : List Int) :
    (key.length ≠ 8 ∧ validateKey key = .error .invalidKeyLength) ∨
    (key.length = 8 ∧ (∃ e ∈ key, e < 0 ∨ 255 < e) ∧ validateKey key = .error .invalidKeyValue) ∨
    (key.length = 8 ∧ (∀ e ∈ key, 0 ≤ e ∧ e ≤ 255) ∧ validateKey key = .ok ()) := by
  have hall : (key.all fun e => 0 ≤ e && e ≤ 255) = true ↔ ∀ e ∈ key, 0 ≤ e ∧ e ≤ 255 := by simp
  by_cases h : key.length = 8
  · right
    by_cases h2 : ∀ e ∈ key, 0 ≤ e ∧ e ≤ 255
    · right
      refine ⟨h, h2, ?_⟩
      unfold validateKey
      rw [if_neg (by omega), if_pos (hall.2 h2)]
    · left
      refine ⟨h, ?_, ?_⟩
      · push Not at h2
        obtain ⟨e, he, h3⟩ := h2
        refine ⟨e, he, ?_⟩
        by_cases h0 : 0 ≤ e
        · exact .inr (h3 h0)
        · left; omega
      · unfold validateKey
        rw [if_neg (by omega), if_neg (mt hall.1 h2)]
  · left
    exact ⟨h, by unfold validateKey; rw [if_pos h]⟩

theorem length_splitBlocks (m : ByteSeq) : (splitBlocks m).length = m.length / 8 := by simp [splitBlocks]

theorem getElem_splitBlocks (m : ByteSeq) (b : Nat) (h : b < (splitBlocks m).length) :
    (splitBlocks m)[b] = memRead m (8 * b) 8 := by
  simp [splitBlocks, blockAt]

/-- The first block of a message that begins with eight bytes is those bytes. -/
theorem splitBlocks_append (c m : ByteSeq) (h : c.length = 8) : splitBlocks (c ++ m) = c :: splitBlocks m := by
  unfold splitBlocks
  rw [List.length_append, h, show (8 + m.length) / 8 = m.length / 8 + 1 by omega, List.range_succ_eq_map]
  simp only [List.map_cons, List.map_map, List.cons.injEq]
  constructor
  · simp [blockAt, memRead, ← h]
  · apply List.map_congr_left
    intro k _
    simp only [Function.comp, blockAt, memRead]
    rw [show 8 * Nat.succ k = c.length + 8 * k by omega, List.drop_append,
      List.drop_eq_nil_of_le (as := c) (by omega)]
    simp

/-- `transformBlocks` answers on every list of blocks, the result of block b at bytes 8b..8b+7. -/
theorem transformBlocks_ok (sk : Subkeys) (d : Direction) (bs : List ByteSeq) :
    ∃ out, transformBlocks sk d bs = .ok out ∧ out.length = 8 * bs.length ∧
      ∀ b (h : b < bs.length), transform bs[b] sk d = .ok (memRead out (8 * b) 8) := by
  induction bs with
  | nil => exact ⟨[], rfl, rfl, by simp⟩
  | cons b bs ih =>
    obtain ⟨c, hc, ht⟩ := transform_ok b sk d
    obtain ⟨out, ho, hl, hb⟩ := ih
    refine ⟨c ++ out, by simp [transformBlocks, ht, ho], by simp [hc, hl]; omega, ?_⟩
    rintro (_ | n) h
    · simp [ht, memRead, ← hc]
    · rw [List.getElem_cons_succ, hb n (by simpa using h)]
      simp only [memRead, Except.ok.injEq]
      rw [show 8 * (n + 1) = c.length + 8 * n by omega, List.drop_append,
        List.drop_eq_nil_of_le (as := c) (by omega)]
      simp

/-- `subkeyBytes` answers on every list of subkeys, six bytes a subkey. -/
theorem subkeyBytes_ok (ks : List Subkey) :
    ∃ out, subkeyBytes ks = .ok out ∧ out.length = 6 * ks.length ∧
      ∀ b (h : b < ks.length), bitsToBytes ks[b] = .ok (memRead out (6 * b) 6) := by
  induction ks with
  | nil => exact ⟨[], rfl, rfl, by simp⟩
  | cons k ks ih =>
    obtain ⟨out, ho, hl, hb⟩ := ih
    obtain ⟨c, hc, ht⟩ : ∃ c : ByteSeq, c.length = 6 ∧ bitsToBytes k = .ok c := by
      rw [bitsToBytes_of_dvd _ rfl]
      exact ⟨_, by simp, rfl⟩
    refine ⟨c ++ out, by simp [subkeyBytes, ht, ho], by simp [hc, hl]; omega, ?_⟩
    rintro (_ | n) h
    · simp [ht, memRead, ← hc]
    · rw [List.getElem_cons_succ, hb n (by simpa using h)]
      simp only [memRead, Except.ok.injEq]
      rw [show 6 * (n + 1) = c.length + 6 * n by omega, List.drop_append,
        List.drop_eq_nil_of_le (as := c) (by omega)]
      simp

end Sys2Proof.Machine
end

