-- ==== Sys2Proof/Machine/KnownAnswers.lean ====
section
/-! DEFINITION. What rule R142 has a model rerun on the supplied S-box entries: the document's vector (section 1 of
95_test_vectors.md) and the fifteen single blocks of its section 5. No meaning reads anything of this file; the checks
are theorems of Laws/KnownAnswers.lean. -/
namespace Sys2Proof.Machine

/-- A row of the single-block vectors, byte 0 leftmost: what `ENCB` makes of a block under a key. -/
structure KnownBlock where
  key : Block
  plain : Block
  cipher : Block
  deriving DecidableEq, Repr

/-- The document's own vector (section 1 of 95_test_vectors.md, T2). -/
def documentVector : List KnownBlock :=
  [ { key := 0x133457799BBCDFF1, plain := 0x0123456789ABCDEF, cipher := 0x85E813540F0AB405 } ]

/-- Rows 1 to 9 of section 5 of 95_test_vectors.md. -/
def knownBlocksGeneral : List KnownBlock :=
  [ { key := 0x0000000000000000, plain := 0x0000000000000000, cipher := 0x8CA64DE9C1B123A7 },
    { key := 0xFFFFFFFFFFFFFFFF, plain := 0xFFFFFFFFFFFFFFFF, cipher := 0x7359B2163E4EDC58 },
    { key := 0x0E329232EA6D0D73, plain := 0x8787878787878787, cipher := 0x0000000000000000 },
    { key := 0x0123456789ABCDEF, plain := 0x4E6F772069732074, cipher := 0x3FA40E8A984D4815 },
    { key := 0x0000000000000000, plain := 0xFFFFFFFFFFFFFFFF, cipher := 0x355550B2150E2451 },
    { key := 0xFFFFFFFFFFFFFFFF, plain := 0x0000000000000000, cipher := 0xCAAAAF4DEAF1DBAE },
    { key := 0x133457799BBCDFF1, plain := 0x0000000000000000, cipher := 0x948A43F98A834F7E },
    { key := 0x1232567698BADEF0, plain := 0x0123456789ABCDEF, cipher := 0xFE0398E9097967A2 },
    { key := 0x0101010101010101, plain := 0x0123456789ABCDEF, cipher := 0x617B3A0CE8F07100 } ]

/-- Rows 10 to 15 of section 5, chosen to read every S-box entry. -/
def knownBlocksCoverage : List KnownBlock :=
  [ { key := 0xBBBEBA9FCF601902, plain := 0xD3C2DACEF03C6969, cipher := 0xAC82A0958BD60B0F },
    { key := 0x59DA19E3C8473ACD, plain := 0x4DEC4EDE6211ED9F, cipher := 0x1707B5A7CB2AF7E0 },
    { key := 0x3F9BD9E5E496E9A6, plain := 0xC23CED135C6B797F, cipher := 0x6593D6E8BFA379B0 },
    { key := 0x9946F6D23F28B94A, plain := 0x20DED0EF4D77728C, cipher := 0x1CF98521BAE915C6 },
    { key := 0xBC1CED97F595AEF1, plain := 0xBB362D25B25CBA65, cipher := 0xEAA29D69B657C432 },
    { key := 0x753EAF94DA020092, plain := 0x3176F58F9FC4676C, cipher := 0x0E03CD0200125BCA } ]

/-- The sixteen rows, which together read every one of the 512 S-box entries. -/
def knownBlocks : List KnownBlock := documentVector ++ knownBlocksGeneral ++ knownBlocksCoverage

/-- The eight bytes of a block, byte 0 first (rule R51). -/
def blockBytes (b : Block) : ByteSeq := (List.range 8).map fun k => subvec b (8 * k) 8

/-- The state a host makes from reset by `LOADKEY` of a row's key and `LOADIN` of a block. -/
def loadedBlock (key block : Block) : State :=
  hostLoadIn (blockBytes block) (hostLoadKey ((blockBytes key).map fun b => (b.toNat : Int)) State.reset)

/-- The row's ciphertext is the encrypting transform of its plaintext under the subkeys of its key. -/
def KnownBlock.agrees (v : KnownBlock) : Bool :=
  transformVector v.plain (deriveSubkeys (blockBytes v.key)) .encrypt == v.cipher

/-- ENCB on the row's key and plaintext, loaded from reset, ends with the row's ciphertext in OBUF and ERR = 0. -/
def KnownBlock.EncbGivesCipher (v : KnownBlock) : Prop :=
  execEncb (loadedBlock v.key v.plain) =
    .next { loadedBlock v.key v.plain with obuf := blockBytes v.cipher, err := 0 }

/-- Rule R142, what a model can rerun: check (1), the fact of rule R141; check (2), the document's vector; and the
vectors of 95_test_vectors.md section 5, which the rule says to add. -/
def SboxEntryChecks : Prop :=
  SboxRowFacts ∧ (∀ v ∈ documentVector, v.EncbGivesCipher) ∧
  ∀ v ∈ knownBlocksGeneral ++ knownBlocksCoverage, v.EncbGivesCipher

end Sys2Proof.Machine
end

