-- ==== Sys2Proof/Laws/KnownAnswers.lean ====
section
/-! SUPPORT. The checks of rules R141 and R142 on the supplied S-box entries, rerun by evaluation. Every expected value
is the spec's: sections 1 and 5 of 95_test_vectors.md. -/
namespace Sys2Proof.Machine

/-! ### Blocks as bytes -/

@[simp] theorem length_blockBytes (b : Block) : (blockBytes b).length = 8 := by simp [blockBytes]

theorem blockVector_blockBytes (b : Block) : blockVector (blockBytes b) = b := by
  apply BitVec.eq_of_getMsbD_eq
  intro i hi
  have hk : i / 8 < (blockBytes b).length := by simp; omega
  rw [getMsbD_blockVector _ (length_blockBytes b) _ hi]
  have hbit := getMsbD_bytesToBits (blockBytes b) (i / 8) (i % 8) hk (Nat.mod_lt _ (by decide))
  rw [Nat.div_add_mod] at hbit
  rw [hbit]
  simp only [blockBytes, List.getElem_map, List.getElem_range]
  rw [getMsbD_subvec _ _ _ _ (Nat.mod_lt _ (by decide)) (by omega), Nat.div_add_mod]

/-- `transform` on the bytes of a block is `transformVector` on the block. -/
theorem transform_blockBytes (b : Block) (sk : Subkeys) (d : Direction) :
    transform (blockBytes b) sk d = .ok (blockBytes (transformVector b sk d)) := by
  rw [transform, blockVector_blockBytes, bitsToBytes_of_dvd _ rfl]
  rfl

/-- A key given as bytes passes validation. -/
theorem validateKey_bytes (bytes : ByteSeq) (h : bytes.length = 8) :
    validateKey (bytes.map fun b => (b.toNat : Int)) = .ok () := by
  unfold validateKey
  rw [if_neg (by simp [h]), if_pos]
  simp only [List.all_map, List.all_eq_true, Function.comp, Bool.and_eq_true, decide_eq_true_eq]
  intro b _
  omega

theorem keyBytes_bytes (bytes : ByteSeq) : keyBytes (bytes.map fun b => (b.toNat : Int)) = bytes := by
  simp [keyBytes, Function.comp_def]

/-- ENCB after a host has loaded a key and a block, at the level of 64-bit vectors. -/
theorem execEncb_loadedBlock (key block : Block) :
    execEncb (loadedBlock key block) = .next (completeCommand
      (blockBytes (transformVector block (deriveSubkeys (blockBytes key)) .encrypt)) (loadedBlock key block)) := by
  have hb : blockOperand (loadedBlock key block) = .ok (blockBytes block) := by
    simp [blockOperand, loadedBlock, hostLoadIn, hostLoadKey, State.ilen, memRead, List.take_of_length_le]
  have hk : keyOperand (loadedBlock key block) = (blockBytes key).map fun b => (b.toNat : Int) := rfl
  simp only [execEncb, blockResult, hb, hk, validateKey_bytes _ (length_blockBytes key), keyBytes_bytes,
    transform_blockBytes]
  rfl

/-! ### The checks -/

/-- Check (1) of rule R142, rule R141: in every row of every box each value 0..15 appears exactly once. -/
theorem sbox_rows_are_permutations : SboxRowFacts := by
  unfold SboxRowFacts; decide +kernel

/-- Check (2) of rule R142: the document's vector. -/
theorem documentVector_agrees : ∀ v ∈ documentVector, v.agrees = true := by decide +kernel

/-- Rows 1 to 9 of the vectors rule R142 says to add. -/
theorem knownBlocksGeneral_agree : ∀ v ∈ knownBlocksGeneral, v.agrees = true := by decide +kernel

/-- Rows 10 to 15 of the vectors rule R142 says to add. -/
theorem knownBlocksCoverage_agree : ∀ v ∈ knownBlocksCoverage, v.agrees = true := by decide +kernel

/-- A row that agrees is one on which ENCB gives the ciphertext. -/
theorem encbGivesCipher_of_agrees (v : KnownBlock) (h : v.agrees = true) : v.EncbGivesCipher := by
  rw [KnownBlock.EncbGivesCipher, execEncb_loadedBlock, eq_of_beq h]
  rfl

/-- Checks (1) and (2) of rule R142 and the vectors it says to add. -/
theorem sboxEntryChecks : SboxEntryChecks := by
  refine ⟨sbox_rows_are_permutations, fun v hv => encbGivesCipher_of_agrees v (documentVector_agrees v hv), ?_⟩
  intro v hv
  apply encbGivesCipher_of_agrees
  rcases List.mem_append.1 hv with hv | hv
  exacts [knownBlocksGeneral_agree v hv, knownBlocksCoverage_agree v hv]

/-- On all sixteen rows ENCB ends with the row's ciphertext and ERR = 0. -/
theorem knownBlocks_encrypt : ∀ v ∈ knownBlocks, v.EncbGivesCipher := by
  intro v hv
  rw [knownBlocks, List.append_assoc] at hv
  exact (List.mem_append.1 hv).elim (sboxEntryChecks.2.1 v) (sboxEntryChecks.2.2 v)

end Sys2Proof.Machine
end

