-- ==== Sys2Proof/Laws/State.lean ====
section
/-! SUPPORT. One lemma per field of State for each update, so that no later proof unfolds a record update. -/
namespace Sys2Proof.Machine

section Complete
variable (out : ByteSeq) (s : State)
@[simp] theorem completeCommand_keybuf : (completeCommand out s).keybuf = s.keybuf := rfl
@[simp] theorem completeCommand_ibuf : (completeCommand out s).ibuf = s.ibuf := rfl
@[simp] theorem completeCommand_obuf : (completeCommand out s).obuf = out := rfl
@[simp] theorem completeCommand_err : (completeCommand out s).err = 0 := rfl
@[simp] theorem completeCommand_moves : (completeCommand out s).moves = s.moves := rfl
end Complete

section Raise
variable (k : ErrorKind) (s : State)
@[simp] theorem raiseError_keybuf : (raiseError k s).keybuf = s.keybuf := rfl
@[simp] theorem raiseError_ibuf : (raiseError k s).ibuf = s.ibuf := rfl
@[simp] theorem raiseError_obuf : (raiseError k s).obuf = [] := rfl
@[simp] theorem raiseError_err : (raiseError k s).err = k.code := rfl
@[simp] theorem raiseError_moves : (raiseError k s).moves = s.moves := rfl
end Raise

section HostWrites
variable (es : List Int) (bs : ByteSeq) (s : State)
@[simp] theorem hostLoadKey_keybuf : (hostLoadKey es s).keybuf = es := rfl
@[simp] theorem hostLoadKey_ibuf : (hostLoadKey es s).ibuf = s.ibuf := rfl
@[simp] theorem hostLoadKey_obuf : (hostLoadKey es s).obuf = s.obuf := rfl
@[simp] theorem hostLoadKey_err : (hostLoadKey es s).err = s.err := rfl
@[simp] theorem hostLoadKey_moves : (hostLoadKey es s).moves = s.moves := rfl
@[simp] theorem hostLoadIn_keybuf : (hostLoadIn bs s).keybuf = s.keybuf := rfl
@[simp] theorem hostLoadIn_ibuf : (hostLoadIn bs s).ibuf = bs := rfl
@[simp] theorem hostLoadIn_obuf : (hostLoadIn bs s).obuf = s.obuf := rfl
@[simp] theorem hostLoadIn_err : (hostLoadIn bs s).err = s.err := rfl
@[simp] theorem hostLoadIn_moves : (hostLoadIn bs s).moves = s.moves := rfl
@[simp] theorem hostLoadInObuf_keybuf : (hostLoadInObuf s).keybuf = s.keybuf := rfl
@[simp] theorem hostLoadInObuf_ibuf : (hostLoadInObuf s).ibuf = s.obuf := rfl
@[simp] theorem hostLoadInObuf_obuf : (hostLoadInObuf s).obuf = s.obuf := rfl
@[simp] theorem hostLoadInObuf_err : (hostLoadInObuf s).err = s.err := rfl
@[simp] theorem hostLoadInObuf_moves : (hostLoadInObuf s).moves = s.moves := rfl
end HostWrites

section Reset
variable (s : State)
@[simp] theorem hostReset_keybuf : (hostReset s).keybuf = [] := rfl
@[simp] theorem hostReset_ibuf : (hostReset s).ibuf = [] := rfl
@[simp] theorem hostReset_obuf : (hostReset s).obuf = [] := rfl
@[simp] theorem hostReset_err : (hostReset s).err = 0 := rfl
@[simp] theorem hostReset_moves : (hostReset s).moves = s.moves := rfl
@[simp] theorem reset_keybuf : State.reset.keybuf = [] := rfl
@[simp] theorem reset_ibuf : State.reset.ibuf = [] := rfl
@[simp] theorem reset_obuf : State.reset.obuf = [] := rfl
@[simp] theorem reset_err : State.reset.err = 0 := rfl
@[simp] theorem reset_moves : State.reset.moves = [] := rfl
end Reset

section FetchWord
variable (s : State) (nbits w : Nat)
@[simp] theorem withFetchWord_keybuf : (s.withFetchWord nbits w).keybuf = s.keybuf := rfl
@[simp] theorem withFetchWord_ibuf : (s.withFetchWord nbits w).ibuf = s.ibuf := rfl
@[simp] theorem withFetchWord_obuf : (s.withFetchWord nbits w).obuf = s.obuf := rfl
@[simp] theorem withFetchWord_err : (s.withFetchWord nbits w).err = s.err := rfl
@[simp] theorem withFetchWord_moves :
    (s.withFetchWord nbits w).moves = .issue (tableWordByte nbits w) :: s.moves := rfl
end FetchWord

end Sys2Proof.Machine
end

