-- ==== Sys2Proof/Laws/Ops.lean ====
section
/-! SUPPORT. One lemma for everything each shared operation of Machine/Ops.lean can do, and `exec` as one end of a
command over the answer of its rule. -/
namespace Sys2Proof.Machine

/-! ### Buffers -/

/-- A write inside a buffer keeps its length: buffers are lists of exactly their length (U2). -/
theorem length_memWrite (buf : ByteSeq) (a : Nat) (out : ByteSeq) (h : a + out.length ≤ buf.length) :
    (memWrite buf a out).length = buf.length := by
  simp [memWrite]
  omega

/-- What is written at `a` is read back there. -/
theorem memRead_memWrite_same (buf : ByteSeq) (a : Nat) (out : ByteSeq) (h : a ≤ buf.length) :
    memRead (memWrite buf a out) a out.length = out := by
  have hl : (buf.take a).length = a := by simp [h]
  simp only [memWrite, memRead, List.append_assoc]
  rw [List.drop_append, List.drop_eq_nil_of_le (by omega), hl]
  simp

/-- A byte outside the written ones reads as before. -/
theorem getElem?_memWrite_other (buf : ByteSeq) (a : Nat) (out : ByteSeq) (h : a + out.length ≤ buf.length)
    (j : Nat) (hj : j < a ∨ a + out.length ≤ j) : (memWrite buf a out)[j]? = buf[j]? := by
  have hl : (buf.take a).length = a := by simp; omega
  simp only [memWrite, List.append_assoc]
  rcases hj with hj | hj
  · rw [List.getElem?_append_left (by omega), List.getElem?_take_of_lt hj]
  · rw [List.getElem?_append_right (by omega), List.getElem?_append_right (by omega), List.getElem?_drop, hl]
    congr 1
    omega

theorem messageOperand_eq (s : State) : messageOperand s = s.ibuf := by
  simp [messageOperand, memRead, State.ilen]

/-! ### The end of a command -/

@[simp] theorem endCommand_ok (out : ByteSeq) (s : State) :
    endCommand (.ok out) s = .next (completeCommand out s) := rfl

@[simp] theorem endCommand_error (k : ErrorKind) (s : State) :
    endCommand (.error k) s = .next (raiseError k s) := rfl

/-- Everything the end of a command can do: OBUF and ERR from the answer, nothing else. -/
theorem endCommand_eq (r : Except ErrorKind ByteSeq) (s : State) :
    endCommand r s = .next { s with obuf := r.toOption.getD [], err := errValue r } := by
  cases r <;> rfl

/-- The meaning of every command is the end of a command over the answer of its rule. -/
theorem exec_eq_endCommand (i : Instr) (s : State) : exec i s = endCommand (resultOf i s) s := by
  cases i <;> rfl

/-- The answer of a command's rule reads KEYBUF and IBUF only. -/
theorem resultOf_congr (i : Instr) (s s' : State) (hk : s.keybuf = s'.keybuf) (hi : s.ibuf = s'.ibuf) :
    resultOf i s = resultOf i s' := by
  obtain ⟨k, d, o, e, m⟩ := s
  obtain ⟨k', d', o', e', m'⟩ := s'
  simp only at hk hi
  subst hk hi
  cases i <;> rfl

/-- The answer of a command's rule where the key fails validation. -/
theorem resultOf_of_invalid (i : Instr) (s : State) (k : ErrorKind) (h : validateKey s.keybuf = .error k) :
    resultOf i s = .error k := by
  cases i <;> simp [resultOf, kschResult, blockResult, encryptMessage, decryptMessage, keyOperand, h]

/-- An issued byte changes OBUF and ERR only, and always answers a next state. -/
theorem issue_next (c : Byte) (s : State) : ∃ out e, issue c s = .next { s with obuf := out, err := e } := by
  unfold issue
  split
  · rw [exec_eq_endCommand, endCommand_eq]
    exact ⟨_, _, rfl⟩
  · exact ⟨_, _, rfl⟩

end Sys2Proof.Machine
end

