-- ==== Sys2Proof/Laws/PerInstr.lean ====
section
/-! SUPPORT. Statements about each command as syntax. Family OpcodeRow: spec/opcode_table.json has one row for the
command, its encoding is the one that row matches, and no other row matches it. -/

def Sys2Proof.Laws.OpcodeRow.Statement (i : Sys2Proof.Instr) : Prop :=
  (Sys2Proof.opcodeTable.filter fun r => Sys2Proof.encodeByte i &&& r.mask == r.pattern).map
    Sys2Proof.OpcodeRow.command = [i]

theorem Sys2Proof.Laws.OpcodeRow.ksch : Sys2Proof.Laws.OpcodeRow.Statement .ksch := by
  unfold Sys2Proof.Laws.OpcodeRow.Statement; decide

theorem Sys2Proof.Laws.OpcodeRow.encb : Sys2Proof.Laws.OpcodeRow.Statement .encb := by
  unfold Sys2Proof.Laws.OpcodeRow.Statement; decide

theorem Sys2Proof.Laws.OpcodeRow.decb : Sys2Proof.Laws.OpcodeRow.Statement .decb := by
  unfold Sys2Proof.Laws.OpcodeRow.Statement; decide

theorem Sys2Proof.Laws.OpcodeRow.encm : Sys2Proof.Laws.OpcodeRow.Statement .encm := by
  unfold Sys2Proof.Laws.OpcodeRow.Statement; decide

theorem Sys2Proof.Laws.OpcodeRow.decm : Sys2Proof.Laws.OpcodeRow.Statement .decm := by
  unfold Sys2Proof.Laws.OpcodeRow.Statement; decide
end

