-- ==== Sys2Proof/Laws/Tables.lean ====
section
/-! SUPPORT. The structural facts of rule R109, "a model can prove each by evaluation", on the six tables, and what one
of them says about `permuteBits`. -/
namespace Sys2Proof.Machine

/-- Rule R109 (a), (b) and (c). -/
theorem squareTableFacts : SquareTableFacts := by
  unfold SquareTableFacts PermTable.Bijective PermTable.Inverts PermTable.timesNamed
  decide +kernel

/-- Rule R109 (d). -/
theorem expansionTableFacts : ExpansionTableFacts := by
  unfold ExpansionTableFacts PermTable.timesNamed
  decide +kernel

/-- Rule R109 (e) and (f). -/
theorem keyTableFacts : KeyTableFacts := by
  unfold KeyTableFacts PermTable.timesNamed
  decide +kernel

/-- A permutation by a table and then by one that it inverts gives the vector back (the consequence in rule
R109 (b), for any two tables). -/
theorem permuteBits_permuteBits_of_inverts {n : Nat} (T U : PermTable n n) (h : T.Inverts U) (v : BitVec n) :
    permuteBits (permuteBits v T) U = v := by
  apply BitVec.eq_of_getMsbD_eq
  intro i hi
  obtain ⟨(hj : U.entries[i] - 1 < n), (hT : T.entries[U.entries[i] - 1] = i + 1)⟩ :=
    Vector.getElem?_eq_some_iff.1 (h ⟨i, hi⟩)
  rw [getMsbD_permuteBits _ _ _ hi, getMsbD_permuteBits _ _ _ hj]
  rw [hT, Nat.add_sub_cancel]

end Sys2Proof.Machine
end

