-- ==== Sys2Proof/Tests/Slice0.lean ====
section
/-! SUPPORT. Tests, each on one step of a small state or one unit, and for every obligation with hypotheses a
witness that meets them. Every expected value is the spec's: the section of spec/95_test_vectors.md, or the rule, is
named beside it. -/
namespace Sys2Proof.Tests

open Sys2Proof Sys2Proof.Machine

/-- The key of the document's vector (section 1). -/
def exampleKey : List Int := [0x13, 0x34, 0x57, 0x79, 0x9B, 0xBC, 0xDF, 0xF1]

/-- The plaintext block of the document's vector (section 1). -/
def exampleBlock : ByteSeq := [0x01, 0x23, 0x45, 0x67, 0x89, 0xAB, 0xCD, 0xEF]

/-- A state with a key and an input, and something left over in OBUF and ERR. -/
def loaded (key : List Int) (input : ByteSeq) : State :=
  { keybuf := key, ibuf := input, obuf := [0xEE], err := 3, moves := [] }

/-- The same with the host's next moves. -/
def scripted (key : List Int) (input : ByteSeq) (moves : List HostMove) : State :=
  { loaded key input with moves := moves }

/-- What the host reads after a step: OBUF and ERR. -/
def seen (o : Host.Outcome State Fault Refusal) : Option (ByteSeq × Nat) :=
  match o with
  | .next t => some (t.obuf, t.err.toNat)
  | .fault _ => none
  | .refused _ => none

/-! ### Decoding: every command's byte written out from rule R70 (zero 7:4, fn 3:1, dir 0) -/

theorem test_decode_ksch : decode [0b0000_001_0] = .ok (.ksch, []) := by decide
theorem test_decode_encb : decode [0b0000_010_0] = .ok (.encb, []) := by decide
theorem test_decode_decb : decode [0b0000_010_1, 0xFF] = .ok (.decb, [0xFF]) := by decide
theorem test_decode_encm : decode [0b0000_011_0] = .ok (.encm, []) := by decide
theorem test_decode_decm : decode [0b0000_011_1] = .ok (.decm, []) := by decide

/-- Section 7, rows 17 to 19: reserved bytes, each rejected by the field that makes it so. -/
theorem test_decode_reserved :
    decode [0x00] = .error .reservedFunction ∧ decode [0x01] = .error .reservedFunction ∧
    decode [0x03] = .error .reservedDirection ∧ decode [0x08] = .error .reservedFunction ∧
    decode [0x0C] = .error .reservedFunction ∧ decode [0x16] = .error .reservedZeroField ∧
    decode [0x86] = .error .reservedZeroField ∧ decode [0xFF] = .error .reservedZeroField ∧
    decode [] = .error .noByte := by decide

/-! ### Well-formedness: an ill-formed term for each check -/

theorem test_wf_zeroField : CmdWord.wf { zero := 1, fn := 3, dir := 0 } = false ∧
    CmdWord.zeroOk { zero := 1, fn := 3, dir := 0 } = false := by decide
theorem test_wf_function : CmdWord.wf { zero := 0, fn := 4, dir := 0 } = false ∧
    CmdWord.fnOk { zero := 0, fn := 4, dir := 0 } = false := by decide
theorem test_wf_direction : CmdWord.wf { zero := 0, fn := 1, dir := 1 } = false ∧
    CmdWord.dirOk { zero := 0, fn := 1, dir := 1 } = false := by decide

/-- The smallest parameters rule R8 allows. -/
def smallest : Config.Params where
  keyElemBits := 10
  keybufCap := 9
  ibufCap := 8
  obufCap := 96
  lanes := 1
  regmap := { klen := 0, keybuf := 1, ilen := 2, ibuf := 3, olen := 4, obuf := 5, err := 6, cmd := 7 }

theorem test_params_smallest_wf : smallest.wf = true := by decide
/-- R8 gives `REGMAP` no constraint: even one address for everything is well-formed. -/
theorem test_params_regmap_unconstrained : Config.Params.wf { smallest with
    regmap := { klen := 0, keybuf := 0, ilen := 0, ibuf := 0, olen := 0, obuf := 0, err := 0, cmd := 0 } } = true := by
  decide
theorem test_params_ill_formed :
    Config.Params.wf { smallest with keyElemBits := 9 } = false ∧
    Config.Params.wf { smallest with keybufCap := 8 } = false ∧
    Config.Params.wf { smallest with ibufCap := 7 } = false ∧
    Config.Params.wf { smallest with obufCap := 95 } = false ∧
    Config.Params.wf { smallest with ibufCap := 89 } = false ∧
    Config.Params.wf { smallest with lanes := 0 } = false := by decide
theorem test_params_unpresentable :
    smallest.elemFits 512 = false ∧ smallest.elemFits (-513) = false ∧ smallest.elemFits (-512) = true ∧
    smallest.keyFits (List.replicate 10 0) = false ∧ smallest.keyFits [512] = false ∧
    smallest.inputFits (List.replicate 9 0) = false := by decide

/-! ### The units (sections 2 to 5) -/

theorem test_bytesToBits : bytesToBits [0x13, 0x34] = 0b00010011_00110100 := by decide
theorem test_bitsToBytes_fails : bitsToBytes (0 : BitVec 28) = .error .malformedBitLength := by decide
theorem test_textToBytes : textToBytes [0x41, 0x00, 0x42] = [0x41, 0, 0x42, 0, 0, 0, 0, 0] := by decide
theorem test_bytesToText : bytesToText [0x00, 0xFF, 0x00, 0x80] = [0xFF, 0x80] := by decide
theorem test_permuteBits_symbolic (a b c : Bool) :
    permuteBits (ofBits 3 [a, b, c]) { entries := #v[3, 1, 2, 3], inRange := by decide }
      = ofBits 4 [c, a, b, c] := by
  revert a b c; decide
theorem test_IP : permuteBits (0x0123456789ABCDEF : BitVec 64) IP = 0xCC00CCFFF0AAF0AA := by decide +kernel
theorem test_FP : permuteBits (0x0123456789ABCDEF : BitVec 64) FP = 0xFF330FAA00330FAA := by decide +kernel
theorem test_E : permuteBits (0x01234567 : BitVec 32) E = 0x802906A0AB0E := by decide +kernel
theorem test_P : permuteBits (0x01234567 : BitVec 32) P = 0x80566C2C := by decide +kernel
theorem test_PC1 : permuteBytes [0x13, 0x34, 0x57, 0x79, 0x9B, 0xBC, 0xDF, 0xF1] PC1
    = .ok [0xF0, 0xCC, 0xAA, 0xF5, 0x56, 0x67, 0x8F] := by decide +kernel
theorem test_PC2 : permuteBits (0x0123456789ABCD : BitVec 56) PC2 = 0x3080E8BB7549 := by decide +kernel
theorem test_rotl28 : rotl28 0x8000001 1 = 0x0000003 ∧ rotl28 0xC332ABF 2 = 0x0CCAAFF := by decide +kernel
theorem test_SHIFTS_sum : SHIFTS.toList.sum = 28 := by decide
theorem test_sboxLookup : sboxLookup 0 0b011000 = 5 ∧ sboxLookup 4 0b100001 = 11 ∧
    sboxLookup 7 0b010101 = 6 ∧ sboxLookup 3 0b100000 = 10 := by decide +kernel
theorem test_substitute : substitute 0 = 0xEFA72C4D ∧ substitute 0x6117BA866527 = 0x5C82B597 := by
  decide +kernel
theorem test_feistelF : feistelF 0xF0AAF0AA 0x1B02EFFC7072 = 0x234AA9BB := by decide +kernel
theorem test_feistelRound : feistelRound { l := 0xCC00CCFF, r := 0xF0AAF0AA } 0x1B02EFFC7072
    = { l := 0xF0AAF0AA, r := 0xEF4A6544 } := by decide +kernel
theorem test_subkeyIndex : subkeyIndex 3 .encrypt = 3 ∧ subkeyIndex 3 .decrypt = 12 := by decide

/-- Rule R109 (b) in the direction of its text: IP[FP[0]-1] = 1 and FP[IP[63]-1] = 64. -/
theorem test_tables_inverse : IP.entries[FP.entries[0] - 1]? = some 1 ∧ FP.entries[IP.entries[63] - 1]? = some 64 := by
  decide +kernel
/-- Rule R109 (d), (e), (f): the entries that each list is about. -/
theorem test_tables_named : E.timesNamed 32 = 2 ∧ E.timesNamed 2 = 1 ∧ PC1.timesNamed 64 = 0 ∧
    PC1.timesNamed 63 = 1 ∧ PC2.timesNamed 54 = 0 ∧ PC2.timesNamed 56 = 1 := by decide +kernel
/-- Rule R141: every row of every box is a permutation of 0..15. -/
theorem test_sbox_rows : (S.toList.all fun box => box.toList.all fun row =>
    (List.finRange 16).all fun v => row.toList.contains v) = true := by decide +kernel

/-! ### The commands (sections 1, 3, 6 and 7) -/

/-- Section 3: SK[0], SK[1] and SK[15] of the example key, as KSCH puts them in OBUF. -/
theorem test_ksch : (seen (execKsch (loaded exampleKey []))).map
      (fun r => (r.1.take 12, r.1.drop 90, r.1.length, r.2))
    = some ([0x1B, 0x02, 0xEF, 0xFC, 0x70, 0x72, 0x79, 0xAE, 0xD9, 0xDB, 0xC9, 0xE5],
        [0xCB, 0x3D, 0x8B, 0x0E, 0x17, 0xF5], 96, 0) := by decide +kernel
/-- Section 7, row 6: an element out of range. -/
theorem test_ksch_value : seen (execKsch (loaded [256, 0, 0, 0, 0, 0, 0, 0] [])) = some ([], 2) := by decide
/-- Section 1, T2: the document's known-answer vector. -/
theorem test_encb : seen (execEncb (loaded exampleKey exampleBlock))
    = some ([0x85, 0xE8, 0x13, 0x54, 0x0F, 0x0A, 0xB4, 0x05], 0) := by decide +kernel
/-- Section 5, single blocks 1 to 15, with the document's vector. -/
theorem test_known_blocks : ∀ v ∈ knownBlocks,
    seen (execEncb (loadedBlock v.key v.plain)) = some (blockBytes v.cipher, 0) := by
  intro v hv
  rw [show execEncb _ = _ from knownBlocks_encrypt v hv]
  rfl
/-- Section 7, row 15: a multiple of 8 is not enough. -/
theorem test_encb_length : seen (execEncb (loaded exampleKey (List.replicate 16 0))) = some ([], 6) := by decide
/-- Section 5: decryption of a block that is no ciphertext. -/
theorem test_decb : seen (execDecb (loaded exampleKey [0, 0, 0, 0, 0, 0, 0, 0]))
    = some ([0x9E, 0xFD, 0xFC, 0x5C, 0x2B, 0x5C, 0xD5, 0x85], 0) := by decide +kernel
/-- Section 7, row 13: never `MalformedCiphertext`. -/
theorem test_decb_length : seen (execDecb (loaded exampleKey [1, 2, 3, 4, 5])) = some ([], 6) := by decide
/-- Section 6, row 13. -/
theorem test_encm : seen (execEncm (loaded exampleKey [1, 2, 3, 4, 5]))
    = some ([0xC9, 0xAA, 0x61, 0xD7, 0x8B, 0xF2, 0xFA, 0x52], 0) := by decide +kernel
/-- Section 7, row 7: length wins over value. -/
theorem test_encm_length_first : seen (execEncm (loaded (List.replicate 7 300) [])) = some ([], 1) := by decide
/-- Section 6, row 8: the inner zero byte is lost. -/
theorem test_decm : seen (execDecm (loaded exampleKey [0x7D, 0xDE, 0xB4, 0x20, 0xF3, 0x5E, 0x5A, 0xC0]))
    = some ([0x41, 0x42], 0) := by decide +kernel
/-- Section 7, row 8 (T6). -/
theorem test_decm_length : seen (execDecm (loaded exampleKey [1, 2, 3, 4, 5])) = some ([], 3) := by decide

/-- Program 4 of section 8: ENCM straight after reset, and a reserved byte. -/
theorem test_step_after_reset : seen (step (State.reset.withFetchWord 8 0x06)) = some ([], 1) ∧
    seen (step (State.reset.withFetchWord 8 0x00)) = some ([], 5) := by decide
/-- Section 7, row 20: the command code is tested first. -/
theorem test_step_reserved_first : seen (step (scripted [1] [1, 2] [.issue 0x00])) = some ([], 5) := by decide
/-- Rule R81: `LOADIN "A"`, and a text whose ordinal 256 cannot be presented (U4). -/
theorem test_textMove : textMove ['A'] = some (.loadIn [0x41]) ∧ textMove [Char.ofNat 256] = none := by decide
/-- Rule R23 and U3: the byte at OLEN has no value. -/
theorem test_read_past_output : hostRead (.obyte 0) (loaded [] []) = some 0xEE ∧
    hostRead (.obyte 1) (loaded [] []) = none := by decide

/-! ### Witnesses: for each obligation with hypotheses, states and operands that meet them, clause by clause -/

theorem validKey_example : ValidKey exampleKey := by unfold ValidKey; decide
/-- 0 and 255 are valid (rule R165). -/
theorem validKey_bounds : ValidKey [0, 255, 0, 255, 0, 255, 0, 255] := by unfold ValidKey; decide
theorem not_validKey : ¬ ValidKey [1, 1, 1, 1, 1, 1, 1, 256] ∧ ¬ ValidKey [-1, 1, 1, 1, 1, 1, 1, 1] := by
  unfold ValidKey; decide

theorem witness_CommandStreamRoundTrip : decodeAll [2, 7] = .ok [.ksch, .decm] ∧
    [2, 7] = encodeAll [.ksch, .decm] := by decide
theorem witness_DecoderReadsOneByte : Instr.wf .decm = true := rfl
theorem witness_StepRunsDecodedCommand :
    (scripted exampleKey [] [.issue 0x06, .reset]).moves = .issue 0x06 :: [.reset] ∧
    decodeByte 0x06 = .ok .encm := by decide
theorem witness_IssueEndsInOneNextState :
    (∀ i, (0x03 : Byte) ≠ encodeByte i) ∧ (0x02 : Byte) = encodeByte .ksch ∧
    resultOf .ksch (loaded [1] []) = .error .invalidKeyLength ∧
    resultOf .decm (loaded exampleKey []) = .ok [] := by
  refine ⟨?_, rfl, rfl, by decide +kernel⟩
  intro i; cases i <;> decide
/-- The ends of every range of rule R73's list. -/
theorem witness_ReservedByteIsIllegalCommand :
    (scripted [] [] [.issue 0x08]).moves = .issue 0x08 :: [] ∧
    ReservedByte 0x00 ∧ ReservedByte 0x01 ∧ ReservedByte 0x03 ∧ ReservedByte 0x08 ∧ ReservedByte 0xFF ∧
    ¬ ReservedByte 0x02 ∧ ¬ ReservedByte 0x04 ∧ ¬ ReservedByte 0x07 := by
  unfold ReservedByte; decide
theorem witness_HostMovesReplaceWholeBuffers :
    (scripted [] [] [.loadKey [-1]]).moves = .loadKey [-1] :: [] ∧
    (scripted [] [] [.loadIn [1]]).moves = .loadIn [1] :: [] ∧
    (scripted [] [] [.loadInObuf]).moves = .loadInObuf :: [] ∧
    (scripted [] [] [.read .err]).moves = .read .err :: [] ∧
    (scripted [] [] [.reset]).moves = .reset :: [] ∧ (scripted [] [] []).moves = [] := by decide
/-- `LOADKEY` meets the first and third clause, `LOADIN` the second. -/
theorem witness_OnlyTheNamedMovesChangeARegister :
    (∀ c, (scripted [] [] [.loadKey []]).moves.head? ≠ some (.issue c)) ∧
    (scripted [] [] [.loadKey []]).moves.head? ≠ some .reset ∧
    (∀ es, (scripted [] [] [.loadIn []]).moves.head? ≠ some (.loadKey es)) ∧
    (∀ bs, (scripted [] [] [.loadKey []]).moves.head? ≠ some (.loadIn bs)) ∧
    (scripted [] [] [.loadKey []]).moves.head? ≠ some .loadInObuf := by
  refine ⟨?_, by decide, ?_, ?_, by decide⟩ <;> intro x <;> simp [scripted, loaded]
theorem witness_EveryCommandValidatesTheKeyFirst :
    ([] : List Int).length ≠ 8 ∧ (List.replicate 9 (1 : Int)).length ≠ 8 ∧
    (∃ e ∈ [1, 1, 1, 1, 1, 1, 1, (256 : Int)], e < 0 ∨ 255 < e) ∧
    (∃ e ∈ [(-1 : Int), 1, 1, 1, 1, 1, 1, 1], e < 0 ∨ 255 < e) ∧ exampleKey.length = 8 ∧
    (∀ e ∈ exampleKey, 0 ≤ e ∧ e ≤ 255) ∧
    validateKey (loaded [1] []).keybuf = .error .invalidKeyLength := by decide
theorem witness_BitLengthErrorIsUnreachable : ErrorKind.code .malformedBitLength = 4 := rfl
/-- Each kind of rule R185's table that a command can end with. -/
theorem witness_ErrorKindsPerCommand :
    resultOf .ksch (loaded [] []) = .error .invalidKeyLength ∧
    resultOf .encm (loaded [1, 1, 1, 1, 1, 1, 1, 256] []) = .error .invalidKeyValue ∧
    resultOf .decm (loaded exampleKey [1]) = .error .malformedCiphertext ∧
    resultOf .encb (loaded exampleKey [1]) = .error .malformedBlock ∧
    resultOf .decb (loaded exampleKey []) = .error .malformedBlock := by decide
theorem witness_OutcomeDependsOnKeyAndInputOnly :
    (loaded exampleKey [1]).keybuf = { loaded exampleKey [1] with obuf := [], err := 0 }.keybuf ∧
    (loaded exampleKey [1]).ibuf = { loaded exampleKey [1] with obuf := [], err := 0 }.ibuf ∧
    (loaded exampleKey [1]).keybuf = (loaded exampleKey []).keybuf := ⟨rfl, rfl, rfl⟩
/-- For the statements of what each command does: every clause's hypotheses, at the edges of the lengths. -/
theorem witness_commandClauses :
    ValidKey (loaded exampleKey exampleBlock).keybuf ∧ (loaded exampleKey exampleBlock).ilen = 8 ∧
    ValidKey (loaded exampleKey []).keybuf ∧ (loaded exampleKey []).ilen % 8 = 0 ∧
    (loaded exampleKey [1, 2, 3, 4, 5, 6, 7]).ilen ≠ 8 ∧ (loaded exampleKey [1, 2, 3, 4, 5, 6, 7]).ilen % 8 ≠ 0 ∧
    (loaded exampleKey (List.replicate 9 1)).ilen % 8 ≠ 0 ∧
    (loaded (List.replicate 7 1) []).klen ≠ 8 ∧ (loaded (List.replicate 9 1) []).klen ≠ 8 ∧
    (loaded [1, 1, 1, 1, 1, 1, 1, 256] []).klen = 8 ∧ ¬ ValidKey (loaded [1, 1, 1, 1, 1, 1, 1, 256] []).keybuf := by
  unfold ValidKey; decide
theorem witness_BytesToBitsMostSignificantFirst : 1 < ([0x13, 0x34] : ByteSeq).length ∧ 7 < 8 := by decide
theorem witness_BitsToBytesInvertsBytesToBits : 28 % 8 ≠ 0 ∧ 1 % 8 ≠ 0 ∧ 48 % 8 = 0 ∧ 0 % 8 = 0 := by decide
theorem witness_TextIsPaddedWithZeros :
    0 < ([0x41] : ByteSeq).length ∧ ([0x41] : ByteSeq).length ≤ 7 ∧ 7 < (textToBytes [0x41]).length := by decide
theorem witness_PermuteBitsReadsTheTable : 47 < 48 ∧
    ∀ p ∈ PC1.entries.toList, (0x12 : BitVec 64).getMsbD (p - 1) = (0x13 : BitVec 64).getMsbD (p - 1) := by
  decide +kernel
theorem witness_PermuteBytesThroughBits : 28 % 8 ≠ 0 ∧ 56 % 8 = 0 := by decide
/-- The ends of the bit ranges, and a key of eight bytes. -/
theorem witness_KeyRotationsAccumulate : exampleBlock.length = 8 ∧ 0 < 28 ∧ 27 < 28 ∧ 0 < 48 ∧ 47 < 48 := by decide
/-- Two halves and subkeys whose XOR agrees: section 5's second and third `feistelF` rows. -/
theorem witness_RoundFunctionBitByBit : 0 < 48 ∧ 47 < 48 ∧ 7 < 8 ∧ 5 < 6 ∧ 31 < 32 ∧
    permuteBits (0xFFFFFFFF : Half) E ^^^ (0 : Subkey) = permuteBits (0 : Half) E ^^^ (0xFFFFFFFFFFFF : Subkey) := by
  decide +kernel
theorem witness_TransformIsSixteenRoundsBetweenIPAndFP : exampleBlock.length = 8 ∧ 31 < 32 ∧ 63 < 64 := by decide
theorem witness_ConstantKeysGiveConstantSubkeys :
    (List.replicate 8 (1 : Int)).length = 8 ∧ (∀ e ∈ List.replicate 8 (1 : Int), e = 0 ∨ e = 1) ∧
    (∀ e ∈ List.replicate 8 (254 : Int), e = 254 ∨ e = 255) := by decide
theorem witness_SboxLookupRowAndColumn :
    (3 : Fin 4).val = 2 * ((0b100001 : BitVec 6).getMsbD 0).toNat + ((0b100001 : BitVec 6).getMsbD 5).toNat ∧
    (0 : Fin 16).val = 8 * ((0b100001 : BitVec 6).getMsbD 1).toNat + 4 * ((0b100001 : BitVec 6).getMsbD 2).toNat
      + 2 * ((0b100001 : BitVec 6).getMsbD 3).toNat + ((0b100001 : BitVec 6).getMsbD 4).toNat := by decide
theorem witness_DecryptionInvertsEncryption : exampleBlock.length = 8 := rfl
/-- For the statements over a run of three moves. -/
theorem witness_runs :
    ValidKey (scripted exampleKey exampleBlock [mnemonicMove .encm, .loadInObuf, mnemonicMove .decm]).keybuf ∧
    (scripted exampleKey exampleBlock [mnemonicMove .encm, .loadInObuf, mnemonicMove .decm, .reset]).moves
      = [mnemonicMove .encm, .loadInObuf, mnemonicMove .decm] ++ [.reset] ∧
    (scripted exampleKey exampleBlock [mnemonicMove .encb, .loadInObuf, mnemonicMove .decb]).ilen = 8 ∧
    (scripted exampleKey [] [mnemonicMove .encm, .loadInObuf, mnemonicMove .decm]).ibuf = [] ∧
    (∀ c ∈ exampleBlock, c ≠ 0) := by
  unfold ValidKey; decide
theorem witness_CallsAreHostSequences :
    (scripted [] [] [.loadKey exampleKey, .loadIn exampleBlock, mnemonicMove .encb]).moves
      = [.loadKey exampleKey, .loadIn exampleBlock, mnemonicMove .encb] ++ [] ∧
    (scripted [] [] [.loadKey exampleKey, mnemonicMove .ksch]).moves
      = [.loadKey exampleKey, mnemonicMove .ksch] ++ [] ∧
    encryptMessage [1] [] = .error .invalidKeyLength ∧ exampleBlock.length = 8 := by decide
theorem witness_EqualBlocksEncryptEqually :
    0 < (loaded exampleKey exampleBlock).ilen / 8 + 1 ∧
    memRead (textToBytes exampleBlock) (8 * 1) 8 = memRead (textToBytes []) (8 * 0) 8 ∧
    (loaded exampleKey exampleBlock).ilen % 8 = 0 ∧ (loaded exampleKey []).ibuf = [] := by decide
theorem witness_BlockOrderIsUnobservable :
    (List.replicate 16 (7 : Byte)).length % 8 = 0 ∧ [1, 0].Perm (List.range (16 / 8)) ∧
    (List.replicate 16 (0 : Byte)).length = (List.replicate 16 (7 : Byte)).length := by decide
/-- The first and the last round of each loop. -/
theorem witness_InnerStepsWriteTheirRegistersOnly :
    ∃ w : Working, w.i < 16 ∧ w.rd < 16 ∧ w.i = 15 ∧ w.rd = 0 :=
  ⟨{ k64 := 0, c := 0, d := 0, sk := Vector.replicate 16 0, l := 0, r := 0, i := 15, b := 0, rd := 0 }, by decide⟩
/-- The example key and the parity-equivalent key of section 3. -/
theorem witness_ParityBitsAreIgnored :
    ValidKey [0x12, 0x35, 0x56, 0x78, 0x9A, 0xBD, 0xDE, 0xF0] ∧
    SameButLowBits exampleKey [0x12, 0x35, 0x56, 0x78, 0x9A, 0xBD, 0xDE, 0xF0] ∧
    (loaded exampleKey [1]).ibuf = (loaded [0x12, 0x35, 0x56, 0x78, 0x9A, 0xBD, 0xDE, 0xF0] [1]).ibuf := by
  unfold ValidKey SameButLowBits; decide
/-- A state with readable output meets the invariant, and so does one with an error. -/
theorem witness_InterfaceInvariantKept :
    State.Inv { loaded exampleKey [] with err := 0 } ∧ State.Inv { loaded exampleKey [] with obuf := [], err := 6 } ∧
    step { loaded exampleKey [] with err := 0 } = .next { loaded exampleKey [] with err := 0 } := by
  refine ⟨?_, ?_, rfl⟩ <;> unfold State.Inv <;> decide
theorem witness_OutputNeverOverflows :
    smallest.wf = true ∧ State.Fits smallest (loaded exampleKey exampleBlock) ∧
    Presentable smallest (loaded exampleKey exampleBlock) (.loadKey (List.replicate 9 256)) ∧
    Presentable smallest (loaded exampleKey exampleBlock) .loadInObuf ∧
    step (scripted exampleKey exampleBlock [.loadInObuf]) = .next (hostLoadInObuf (loaded exampleKey exampleBlock)) := by
  refine ⟨by decide, ?_, ?_, ?_, rfl⟩
  · unfold State.Fits; decide
  · unfold Presentable; decide
  · unfold Presentable; decide
theorem witness_KeyElementsAreSignedIntegers : smallest.wf = true ∧ (-1 : Int) ≤ -1 ∧ (256 : Int) ≤ 256 := by decide
/-- The ordinal 255 is presentable, the ordinal 256 is not; and a state whose next move is that text. -/
theorem witness_TextCarriesItsOrdinals : (∀ c ∈ ['A', 'ÿ'], c.toNat ≤ 255) ∧ 'ÿ'.toNat = 255 ∧
    (∃ c ∈ ['Ā'], 255 < c.toNat) ∧
    (scripted [] [] [.loadIn [0x41, 0xFF], .reset]).moves = .loadIn [0x41, 0xFF] :: [.reset] ∧
    textMove ['A', 'ÿ'] = some (.loadIn [0x41, 0xFF]) :=
  ⟨by simp, rfl, ⟨'Ā', List.mem_singleton.mpr rfl, Nat.lt_succ_self 255⟩, rfl, rfl⟩

end Sys2Proof.Tests
end

section
/-! The scope of the core (spec file 00_scope.md): the constraints of rule R8 as arithmetic, how long each command's
output is, and the two statements about a sized implementation. -/

/-! ### The parameters of rule R8 -/
namespace Sys2Proof.Config

theorem Params.wf_iff (p : Params) : p.wf = true ↔
    10 ≤ p.keyElemBits ∧ 9 ≤ p.keybufCap ∧ 8 ≤ p.ibufCap ∧ max 96 (p.ibufCap + 8) ≤ p.obufCap ∧ 1 ≤ p.lanes := by
  simp only [wf, keyElemOk, keybufOk, ibufOk, obufOk, lanesOk, Bool.and_eq_true, decide_eq_true_eq, and_assoc]

theorem Params.elemFits_iff (p : Params) (e : Int) :
    p.elemFits e = true ↔ -2 ^ (p.keyElemBits - 1) ≤ e ∧ e ≤ 2 ^ (p.keyElemBits - 1) - 1 := by
  simp only [elemFits, Bool.and_eq_true, decide_eq_true_eq]

theorem Params.inputFits_iff (p : Params) (bs : ByteSeq) : p.inputFits bs = true ↔ bs.length ≤ p.ibufCap := by
  simp only [inputFits, decide_eq_true_eq]

@[simp] theorem Params.keyFits_nil (p : Params) : p.keyFits [] = true := by simp [keyFits]

@[simp] theorem Params.inputFits_nil (p : Params) : p.inputFits [] = true := by simp [inputFits]

/-- The elements of a positive width that fit are the readings of the words of that width (rules R12 and R21). -/
theorem Params.elemFits_iff_exists_sextElem (p : Params) (hw : 0 < p.keyElemBits) (e : Int) :
    p.elemFits e = true ↔ ∃ w : BitVec p.keyElemBits, Machine.sextElem w = e := by
  rw [elemFits_iff]
  constructor
  · rintro ⟨hlo, hhi⟩
    exact ⟨BitVec.ofInt _ e, BitVec.toInt_ofInt_eq_self hw hlo (by omega)⟩
  · rintro ⟨w, rfl⟩
    exact ⟨BitVec.le_toInt w, BitVec.toInt_le⟩

/-- Ten bits hold every integer from −512 to 511, and a wider element holds no fewer (rule R8). -/
theorem Params.elemFits_of_ten_bits (p : Params) (hw : 10 ≤ p.keyElemBits) (e : Int) (hlo : -512 ≤ e) (hhi : e ≤ 511) :
    p.elemFits e = true := by
  have hpow : (2 : Int) ^ 9 ≤ 2 ^ (p.keyElemBits - 1) := pow_le_pow_right₀ (by decide) (by omega)
  rw [elemFits_iff]
  omega

end Sys2Proof.Config

/-! ### How long an output is -/
namespace Sys2Proof.Machine

/-- KSCH outputs sixteen subkeys of six bytes (rule R124). -/
theorem length_of_kschResult {s : State} {out : ByteSeq} (h : kschResult s = .ok out) : out.length = 96 := by
  unfold kschResult at h
  split at h
  · cases h
  · obtain ⟨bytes, hbytes, hlen, -⟩ := subkeyBytes_ok (deriveSubkeys (keyBytes (keyOperand s))).toList
    cases hbytes.symm.trans h
    simpa using hlen

/-- ENCB and DECB output one block (rules R151 and R152). -/
theorem length_of_blockResult {d : Direction} {s : State} {out : ByteSeq} (h : blockResult d s = .ok out) :
    out.length = 8 := by
  unfold blockResult at h
  split at h
  · cases h
  · split at h
    · cases h
    · next block _ =>
      obtain ⟨bytes, hlen, hbytes⟩ := transform_ok block (deriveSubkeys (keyBytes (keyOperand s))) d
      cases hbytes.symm.trans h
      exact hlen

/-- Transforming the blocks of a message of whole blocks keeps its length (rule R55). -/
theorem length_of_transformBlocks_splitBlocks {sk : Subkeys} {d : Direction} {m out : ByteSeq} (hm : m.length % 8 = 0)
    (h : transformBlocks sk d (splitBlocks m) = .ok out) : out.length = m.length := by
  obtain ⟨bytes, hbytes, hlen, -⟩ := transformBlocks_ok sk d (splitBlocks m)
  cases hbytes.symm.trans h
  rw [hlen, length_splitBlocks]
  omega

/-- An encrypted message is as long as the padded text (rules R92 and R166). -/
theorem length_of_encryptMessage {key : List Int} {text out : ByteSeq} (h : encryptMessage key text = .ok out) :
    out.length = text.length + padLength text.length := by
  unfold encryptMessage at h
  split at h
  · cases h
  · rw [← length_textToBytes]
    refine length_of_transformBlocks_splitBlocks ?_ h
    rw [length_textToBytes]
    exact (padLength_mod text.length).1

theorem padLength_le (n : Nat) : padLength n ≤ 8 := by
  unfold padLength
  omega

theorem length_bytesToText_le (bytes : ByteSeq) : (bytesToText bytes).length ≤ bytes.length :=
  List.length_filter_le _ _

/-- A decrypted message is at most as long as the input, since zero bytes are only dropped (rules R93 and R168). -/
theorem length_of_decryptMessage_le {key : List Int} {bytes out : ByteSeq} (h : decryptMessage key bytes = .ok out) :
    out.length ≤ bytes.length := by
  unfold decryptMessage at h
  split at h
  · cases h
  · split at h
    · cases h
    · next hmod =>
      split at h
      · cases h
      · next plain hplain =>
        cases h
        have hlen := length_of_transformBlocks_splitBlocks (by omega) hplain
        exact hlen ▸ length_bytesToText_le plain

/-- The longest output of any command: what rule R8 asks OBUF_CAP to hold, with ILEN in the place of IBUF_CAP. -/
theorem length_of_resultOf_le {i : Instr} {s : State} {out : ByteSeq} (h : resultOf i s = .ok out) :
    out.length ≤ max 96 (s.ilen + 8) := by
  have hmsg : (messageOperand s).length = s.ilen := congrArg List.length (messageOperand_eq s)
  cases i with
  | ksch =>
    have := length_of_kschResult h
    omega
  | encb | decb =>
    have := length_of_blockResult h
    omega
  | encm =>
    have := length_of_encryptMessage h
    have := padLength_le (messageOperand s).length
    omega
  | decm =>
    have := length_of_decryptMessage_le h
    omega

/-- What an issued byte leaves in OBUF is no longer than the longest output of a command. -/
theorem length_obuf_of_issue_le {c : Byte} {s t : State} (h : issue c s = .next t) :
    t.obuf.length ≤ max 96 (s.ilen + 8) := by
  unfold issue at h
  split at h
  · next i _ =>
    rw [exec_eq_endCommand] at h
    cases hr : resultOf i s with
    | ok out =>
      rw [hr, endCommand_ok] at h
      cases h
      exact length_of_resultOf_le hr
    | error k =>
      rw [hr, endCommand_error] at h
      cases h
      simp
  · cases h
    simp

/-! ### What fits stays within the sizes -/

/-- OBUF_CAP holds every output, so an issued byte keeps a state within the sizes (rule R8). -/
theorem issue_keeps_fits {p : Config.Params} (hp : p.wf = true) {c : Byte} {s t : State} (hs : State.Fits p s)
    (h : issue c s = .next t) : State.Fits p t := by
  obtain ⟨-, -, -, hcap, -⟩ := (Config.Params.wf_iff p).1 hp
  obtain ⟨hkey, hin, -⟩ := hs
  have hlen := length_obuf_of_issue_le h
  have hilen : s.ilen ≤ p.ibufCap := (Config.Params.inputFits_iff p s.ibuf).1 hin
  obtain ⟨out, e, hnext⟩ := issue_next c s
  cases hnext.symm.trans h
  exact ⟨hkey, hin, by omega⟩

/-- Every presentable move of the host keeps a state within the sizes (rules R8 and R69). -/
theorem hostMove_keeps_fits {p : Config.Params} (hp : p.wf = true) {m : HostMove} {s t : State}
    (hs : State.Fits p s) (hm : Presentable p s m) (h : hostMove m s = .next t) : State.Fits p t := by
  cases m with
  | issue c => exact issue_keeps_fits hp hs h
  | loadKey elems =>
    cases h
    exact ⟨hm, hs.2⟩
  | loadIn bytes | loadInObuf =>
    cases h
    exact ⟨hs.1, hm, hs.2.2⟩
  | read r =>
    cases h
    exact hs
  | reset =>
    cases h
    exact ⟨p.keyFits_nil, p.inputFits_nil, Nat.zero_le _⟩

/-- Settles O55: a step is no move or one presentable move, and the moves still to come are no part of what must fit. -/
theorem outputNeverOverflows : Obligations.OutputNeverOverflows := by
  intro p s t hp hs hm h
  unfold step at h
  split at h
  · cases h
    exact hs
  · next m rest hmoves =>
    have hpres : Presentable p s m := hm m (by rw [hmoves]; rfl)
    exact hostMove_keeps_fits (s := { s with moves := rest }) hp hs hpres h

/-- Settles O56: two's complement covers exactly the range of R21, and R8 asks for at least ten bits. -/
theorem keyElementsAreSignedIntegers : Obligations.KeyElementsAreSignedIntegers := by
  intro p hp
  obtain ⟨hbits, -⟩ := (Config.Params.wf_iff p).1 hp
  exact ⟨p.elemFits_iff_exists_sextElem (by omega),
    fun e hlo hhi => p.elemFits_of_ten_bits hbits e (by omega) (by omega)⟩

end Sys2Proof.Machine
end

section
/-! The state (spec file 10_state.md): what a step does for each move of the host, what a command writes and keeps, what
the host reads, and the working registers a command runs over. -/

/-! ### The step and the host's moves -/
namespace Sys2Proof.Machine

theorem step_of_no_moves {s : State} (h : s.moves = []) : step s = .next s := by
  unfold step
  rw [h]

theorem step_of_moves {s : State} {m : HostMove} {rest : List HostMove} (h : s.moves = m :: rest) :
    step s = hostMove m { s with moves := rest } := by
  unfold step
  rw [h]

theorem issue_of_decode {c : Byte} {i : Instr} (h : decodeByte c = .ok i) (s : State) : issue c s = exec i s := by
  unfold issue
  rw [h]

theorem issue_encodeByte (i : Instr) (s : State) : issue (encodeByte i) s = exec i s :=
  issue_of_decode (decodeByte_encodeByte i) s

/-- Everything a host move can do: it has a next state, leaves the later moves, and changes a register only if it is
one of that register's moves (rules R37, R69 and R210). -/
theorem hostMove_frame (m : HostMove) (s : State) : ∃ t, hostMove m s = .next t ∧ t.moves = s.moves ∧
    ((∀ c, m ≠ .issue c) → m ≠ .reset → t.obuf = s.obuf ∧ t.err = s.err) ∧
    ((∀ es, m ≠ .loadKey es) → m ≠ .reset → t.keybuf = s.keybuf) ∧
    ((∀ bs, m ≠ .loadIn bs) → m ≠ .loadInObuf → m ≠ .reset → t.ibuf = s.ibuf) := by
  cases m with
  | issue c =>
    obtain ⟨out, e, hnext⟩ := issue_next c s
    exact ⟨_, hnext, rfl, fun h => (h c rfl).elim, fun _ _ => rfl, fun _ _ _ => rfl⟩
  | loadKey es => exact ⟨_, rfl, rfl, fun _ _ => ⟨rfl, rfl⟩, fun h => (h es rfl).elim, fun _ _ _ => rfl⟩
  | loadIn bs => exact ⟨_, rfl, rfl, fun _ _ => ⟨rfl, rfl⟩, fun _ _ => rfl, fun h => (h bs rfl).elim⟩
  | loadInObuf => exact ⟨_, rfl, rfl, fun _ _ => ⟨rfl, rfl⟩, fun _ _ => rfl, fun _ h => (h rfl).elim⟩
  | read r => exact ⟨_, rfl, rfl, fun _ _ => ⟨rfl, rfl⟩, fun _ _ => rfl, fun _ _ _ => rfl⟩
  | reset => exact ⟨_, rfl, rfl, fun _ h => (h rfl).elim, fun _ h => (h rfl).elim, fun _ _ h => (h rfl).elim⟩

/-- Settles O10: a step is no move, which changes nothing, or one host move with its frame. -/
theorem onlyTheNamedMovesChangeARegister : Obligations.OnlyTheNamedMovesChangeARegister := by
  intro s
  cases hmoves : s.moves with
  | nil => exact ⟨s, step_of_no_moves hmoves, hmoves, by simp, by simp, by simp⟩
  | cons m rest =>
    obtain ⟨t, hnext, hrest, hout, hkey, hin⟩ := hostMove_frame m { s with moves := rest }
    refine ⟨t, (step_of_moves hmoves).trans hnext, hrest, ?_⟩
    simp only [List.head?_cons, ne_eq, Option.some.injEq]
    refine ⟨?_, ?_, ?_⟩
    · intro hissue hreset
      obtain ⟨hobuf, herr⟩ := hout hissue hreset
      exact ⟨hobuf, herr, fun j => congrArg (·[j]?) hobuf⟩
    · intro hload hreset
      have hkeybuf := hkey hload hreset
      exact ⟨hkeybuf, fun j => congrArg (·[j]?) hkeybuf⟩
    · intro hload hobuf hreset
      have hibuf := hin hload hobuf hreset
      exact ⟨hibuf, fun j => congrArg (·[j]?) hibuf⟩

/-- Settles O6: the move taken is an issue, and an issue of a command's byte is that command's meaning. -/
theorem stepRunsDecodedCommand : Obligations.StepRunsDecodedCommand :=
  fun _ _ _ _ hmoves hdecode => (step_of_moves hmoves).trans (issue_of_decode hdecode _)

/-- Settles O9: each move's own operation, on the state from which the move has been taken. -/
theorem hostMovesReplaceWholeBuffers : Obligations.HostMovesReplaceWholeBuffers :=
  fun _ _ => ⟨fun _ => step_of_moves, fun _ => step_of_moves, step_of_moves, fun _ => step_of_moves, step_of_moves,
    step_of_no_moves⟩

/-! ### What the host reads -/

/-- Settles O11: a list has an entry at an index just below its length. -/
theorem hostReadsStopAtTheLength : Obligations.HostReadsStopAtTheLength := by
  intro s j
  refine ⟨rfl, rfl, rfl, rfl, fun x => List.getElem?_eq_some_iff, fun x => ?_, fun x => ?_⟩
  · simp [hostRead, ibufRead, State.ilen, List.getElem?_eq_some_iff]
  · simp [hostRead, obufRead, State.olen, List.getElem?_eq_some_iff]

/-! ### What a command writes and keeps -/

/-- A command writes OBUF and ERR from the answer of its rule, and nothing else (rules R68, R76 and R191). -/
theorem exec_eq_next (i : Instr) (s : State) :
    exec i s = .next { s with obuf := (resultOf i s).toOption.getD [], err := errValue (resultOf i s) } := by
  rw [exec_eq_endCommand, endCommand_eq]

/-- Two states on which a command's rule answers the same get the same OBUF and ERR. -/
theorem exec_same_outcome {i : Instr} {s s' : State} (h : resultOf i s = resultOf i s') :
    ∃ out e, exec i s = .next { s with obuf := out, err := e } ∧
      exec i s' = .next { s' with obuf := out, err := e } :=
  ⟨_, _, exec_eq_next i s, h ▸ exec_eq_next i s'⟩

/-- KSCH reads KEYBUF only (rule R56). -/
theorem resultOf_ksch_congr {s s' : State} (h : s.keybuf = s'.keybuf) : resultOf .ksch s = resultOf .ksch s' := by
  simp only [resultOf, kschResult, keyOperand, h]

/-- What OBUF and ERR held before is of no account to a command (rule R191). -/
theorem exec_outputs (i : Instr) (s : State) (out : ByteSeq) (e : BitVec 8) :
    exec i { s with obuf := out, err := e } = exec i s := by
  have hsame : resultOf i { s with obuf := out, err := e } = resultOf i s := resultOf_congr i _ s rfl rfl
  rw [exec_eq_next, hsame, exec_eq_next]

/-- Settles O18: a command writes OBUF and ERR only, and what they hold does not matter to it. -/
theorem reissueGivesTheSameOutcome : Obligations.ReissueGivesTheSameOutcome :=
  fun i s => ⟨_, exec_eq_next i s, (exec_outputs i s _ _).trans (exec_eq_next i s)⟩

/-- Settles O19: the next state differs from `s` in OBUF and ERR alone. -/
theorem commandsKeepTheInputs : Obligations.CommandsKeepTheInputs :=
  fun i s => ⟨_, exec_eq_next i s, rfl, rfl, rfl, rfl, rfl, fun _ => rfl, fun _ => rfl⟩

/-- Settles O20: the answer of a command's rule reads KEYBUF and IBUF only, KSCH's KEYBUF only. -/
theorem outcomeDependsOnKeyAndInputOnly : Obligations.OutcomeDependsOnKeyAndInputOnly :=
  ⟨fun i s s' hkey hin => exec_same_outcome (resultOf_congr i s s' hkey hin),
    fun _ _ hkey => exec_same_outcome (resultOf_ksch_congr hkey)⟩

/-! ### Reset -/

/-- The decoder rejects the reserved bytes of rule R73. -/
theorem decodeByte_of_reserved {c : Byte} (h : ReservedByte c) : ∃ r, decodeByte c = .error r := by
  have hnone : (decodeByte c).toOption = none := by
    rw [decodeByte_toOption]
    rcases h with rfl | rfl | rfl | h
    · rfl
    · rfl
    · rfl
    · have hne : ∀ b : Byte, b.toNat < 8 → c ≠ b := by
        rintro b hb rfl
        omega
      rw [if_neg (hne 2 (by decide)), if_neg (hne 4 (by decide)), if_neg (hne 5 (by decide)),
        if_neg (hne 6 (by decide)), if_neg (hne 7 (by decide))]
  cases hd : decodeByte c with
  | ok i => simp [hd, Except.toOption] at hnone
  | error r => exact ⟨r, rfl⟩

theorem issue_of_reserved {c : Byte} (h : ReservedByte c) (s : State) :
    issue c s = .next (raiseError .illegalCommand s) := by
  obtain ⟨r, hr⟩ := decodeByte_of_reserved h
  unfold issue
  rw [hr]
  rfl

theorem exec_of_invalid {s : State} {k : ErrorKind} (h : validateKey s.keybuf = .error k) (i : Instr) :
    exec i s = .next (raiseError k s) := by
  rw [exec_eq_endCommand, resultOf_of_invalid i s k h, endCommand_error]

/-- Settles O12: a key of length 0 fails validation, whatever the command, and a reserved byte reads no buffer. -/
theorem resetLeavesEmptyBuffers : Obligations.ResetLeavesEmptyBuffers := by
  refine ⟨rfl, rfl, rfl, rfl, rfl, rfl, rfl, fun i => ?_, fun c hc => issue_of_reserved hc _⟩
  rw [issue_encodeByte]
  exact exec_of_invalid (k := .invalidKeyLength) rfl i

/-- Settles O53: ERR is 0 at reset. -/
theorem interfaceInvariantAtReset : Obligations.InterfaceInvariantAtReset :=
  ⟨.inl rfl, fun h => (h rfl).elim⟩

/-! ### The key schedule over the working registers -/

/-- C and D as the state of the key schedule (rule R28). -/
def Working.keyState (w : Working) : KeyState := { c := w.c, d := w.d }

/-- L and R as the halves of the block (rule R30). -/
def Working.halves (w : Working) : Halves := { l := w.l, r := w.r }

theorem keyRoundStep_keyState (w : Working) (h : w.i < 16) :
    (keyRoundStep w).keyState = rotateKeyState SHIFTS[w.i] w.keyState := by
  have hshift : SHIFTS.toList.getD w.i 0 = SHIFTS[w.i] := by simp [List.getD_eq_getElem?_getD, h]
  rw [← hshift]
  rfl

/-- A key round writes the subkey of the rotated C and D at `SK[i]` and keeps the other subkeys (rule R29). -/
theorem keyRoundStep_sk (w : Working) (j : Nat) (hj : j < 16) :
    (keyRoundStep w).sk[j] = if w.i = j then subkeyOf (keyRoundStep w).keyState else w.sk[j] :=
  Vector.getElem_setIfInBounds hj

/-- A Feistel round reads the subkey of its round and direction (rules R146 and R148). -/
theorem roundStep_halves (dir : Direction) (w : Working) (h : w.rd < 16) :
    (roundStep dir w).halves = feistelRound w.halves w.sk[subkeyIndex ⟨w.rd, h⟩ dir] := by
  have hround : Fin.ofNat 16 w.rd = ⟨w.rd, h⟩ := Fin.ext (Nat.mod_eq_of_lt h)
  exact congrArg (fun r => feistelRound w.halves w.sk[subkeyIndex r dir]) hround

/-- Settles O50: the two state equations give what is written; each kept register is a field that the update does not
name. -/
theorem innerStepsWriteTheirRegistersOnly : Obligations.InnerStepsWriteTheirRegistersOnly := by
  refine ⟨fun w h => ?_, fun w dir h => ?_⟩
  · have hstate := keyRoundStep_keyState w h
    refine ⟨congrArg KeyState.c hstate, congrArg KeyState.d hstate, ?_, fun j hj => ?_, rfl, rfl, rfl, rfl, rfl, rfl⟩
    · exact (keyRoundStep_sk w w.i h).trans (if_pos rfl)
    · exact (keyRoundStep_sk w j j.isLt).trans (if_neg (Ne.symm hj))
  · have hhalves := roundStep_halves dir w h
    exact ⟨congrArg Halves.l hhalves, congrArg Halves.r hhalves, rfl, rfl, rfl, rfl, rfl, rfl, rfl⟩

/-! ### The key schedule run register by register -/

theorem rotl28_zero (v : KeyHalf) : rotl28 v 0 = v := by
  apply BitVec.eq_of_getMsbD_eq
  intro j hj
  rw [getMsbD_rotl28 _ _ _ hj, Nat.add_zero, Nat.mod_eq_of_lt hj]

theorem rotateKeyState_zero (k : KeyState) : rotateKeyState 0 k = k := by
  simp only [rotateKeyState, rotl28_zero]

/-- The state of the key schedule after `n` rounds from `k`: rotated by the first `n` shifts together (rule R120). -/
def keyStateAfter (k : KeyState) (n : Nat) : KeyState := rotateKeyState (SHIFTS.toList.take n).sum k

theorem keyStateAfter_zero (k : KeyState) : keyStateAfter k 0 = k := rotateKeyState_zero k

theorem keyStateAfter_succ (k : KeyState) (n : Nat) (h : n < 16) :
    keyStateAfter k (n + 1) = rotateKeyState SHIFTS[n] (keyStateAfter k n) := by
  rw [keyStateAfter, keyStateAfter, rotateKeyState_rotateKeyState, List.sum_take_succ _ _ (by simpa using h),
    Vector.getElem_toList]

theorem getElem_deriveSubkeys (key : ByteSeq) (j : Nat) (h : j < 16) :
    (deriveSubkeys key)[j] = subkeyOf (keyStateAfter (initialKeyState (blockVector key)) (j + 1)) :=
  getElem_keyRounds _ _ _ (by simpa [length_keyRounds] using h)

/-- After `n` key rounds from i = 0, C and D are the state after `n` rounds, and the first `n` subkeys are the ones of
their rounds. -/
theorem keyRoundStep_iterate (w : Working) (hi : w.i = 0) (n : Nat) (hn : n ≤ 16) :
    (keyRoundStep^[n] w).i = n ∧ (keyRoundStep^[n] w).keyState = keyStateAfter w.keyState n ∧
    ∀ j (_ : j < 16), j < n → (keyRoundStep^[n] w).sk[j] = subkeyOf (keyStateAfter w.keyState (j + 1)) := by
  induction n with
  | zero => exact ⟨hi, (keyStateAfter_zero _).symm, fun j _ hj => absurd hj (Nat.not_lt_zero j)⟩
  | succ n ih =>
    obtain ⟨hcount, hstate, hsk⟩ := ih (by omega)
    rw [Function.iterate_succ_apply']
    generalize keyRoundStep^[n] w = v at *
    subst hcount
    have hnext : (keyRoundStep v).keyState = keyStateAfter w.keyState (v.i + 1) := by
      rw [keyRoundStep_keyState v (by omega), hstate, keyStateAfter_succ]
    refine ⟨rfl, hnext, fun j hj hjn => ?_⟩
    rw [keyRoundStep_sk v j hj]
    split
    · next heq => rw [hnext, heq]
    · exact hsk j hj (by omega)

/-- The key schedule leaves the derived subkeys in SK, whatever SK held before. -/
theorem scheduleSteps_sk (key : ByteSeq) (w : Working) : (scheduleSteps key w).sk = deriveSubkeys key := by
  obtain ⟨-, -, hsk⟩ := keyRoundStep_iterate (pc1Step (loadK64 key w)) rfl 16 le_rfl
  apply Vector.ext
  intro j hj
  exact (hsk j hj hj).trans (getElem_deriveSubkeys key j hj).symm

/-! ### The blocks run register by register -/

/-- After `n` Feistel rounds from r = 0, L and R are the halves after the first `n` of the sixteen rounds; SK and the
block index are kept. -/
theorem roundStep_iterate (dir : Direction) (w : Working) (hrd : w.rd = 0) (n : Nat) (hn : n ≤ 16) :
    ((roundStep dir)^[n] w).rd = n ∧ ((roundStep dir)^[n] w).sk = w.sk ∧ ((roundStep dir)^[n] w).b = w.b ∧
    ((roundStep dir)^[n] w).halves =
      ((List.finRange 16).take n).foldl (fun h r => feistelRound h w.sk[subkeyIndex r dir]) w.halves := by
  induction n with
  | zero => exact ⟨hrd, rfl, rfl, rfl⟩
  | succ n ih =>
    obtain ⟨hcount, hsk, hb, hhalves⟩ := ih (by omega)
    rw [Function.iterate_succ_apply', List.take_succ_eq_append_getElem (by simpa using hn), List.foldl_append,
      ← hhalves]
    generalize (roundStep dir)^[n] w = v at *
    subst hcount
    refine ⟨rfl, hsk, hb, ?_⟩
    rw [roundStep_halves dir v hn]
    simp [hsk]

/-- The registers after the initial permutation of a block and the sixteen rounds. -/
theorem roundStep_ipStep (dir : Direction) (block : ByteSeq) (w : Working) :
    ((roundStep dir)^[16] (ipStep block w)).sk = w.sk ∧ ((roundStep dir)^[16] (ipStep block w)).b = w.b ∧
    fpStep ((roundStep dir)^[16] (ipStep block w)) = transform block w.sk dir := by
  obtain ⟨-, hsk, hb, hhalves⟩ := roundStep_iterate dir (ipStep block w) rfl 16 le_rfl
  exact ⟨hsk, hb, congrArg (fun h => bitsToBytes (finalBlock h)) hhalves⟩

theorem memWrite_end (out bytes : ByteSeq) (a : Nat) (h : out.length = a) : memWrite out a bytes = out ++ bytes := by
  subst h
  simp [memWrite]

/-- The block loop appends the transforms of the blocks from index b to the results so far. -/
theorem blockLoop_eq (dir : Direction) (m : ByteSeq) (n : Nat) (w : Working) (out : ByteSeq)
    (hout : out.length = 8 * w.b) :
    blockLoop dir m n w out =
      (transformBlocks w.sk dir ((List.range' w.b n).map (blockAt m))).map (out ++ ·) := by
  induction n generalizing w out with
  | zero => simp [blockLoop, transformBlocks, Except.map]
  | succ n ih =>
    obtain ⟨hsk, hb, hfp⟩ := roundStep_ipStep dir (blockAt m w.b) w
    obtain ⟨c, hlen, hc⟩ := transform_ok (blockAt m w.b) w.sk dir
    obtain ⟨rest, hrest, -⟩ := transformBlocks_ok w.sk dir ((List.range' (w.b + 1) n).map (blockAt m))
    simp only [blockLoop, hfp, hc, List.range'_succ, List.map_cons, transformBlocks, hrest]
    generalize (roundStep dir)^[16] (ipStep (blockAt m w.b) w) = v at *
    have hwrite : memWrite out (8 * v.b) c = out ++ c := memWrite_end _ _ _ (by rw [hout, hb])
    have hnext : (out ++ c).length = 8 * (v.b + 1) := by rw [List.length_append, hout, hlen, hb]; rfl
    rw [hwrite, ih { v with b := v.b + 1 } _ hnext, hsk, hb, hrest]
    exact congrArg Except.ok (List.append_assoc out c rest)

/-- The block loop over a message is the transform of its blocks, in order, under the subkeys in SK. -/
theorem messageSteps_eq (dir : Direction) (m : ByteSeq) (w : Working) :
    messageSteps dir m w = transformBlocks w.sk dir (splitBlocks m) := by
  rw [messageSteps, blockLoop_eq dir m _ _ [] rfl, splitBlocks, List.range_eq_range']
  exact congrFun Except.map_id _

/-- One block is a message of one block. -/
theorem messageSteps_block (dir : Direction) (block : ByteSeq) (w : Working) (h : block.length = 8) :
    messageSteps dir block w = transform block w.sk dir := by
  have hsplit : splitBlocks block = [block] := by simpa [splitBlocks] using splitBlocks_append block [] h
  obtain ⟨c, -, hc⟩ := transform_ok block w.sk dir
  rw [messageSteps_eq, hsplit]
  simp [transformBlocks, hc]

theorem length_of_blockOperand {s : State} {block : ByteSeq} (h : blockOperand s = .ok block) : block.length = 8 := by
  unfold blockOperand at h
  split at h
  · cases h
  · next hlen =>
    cases h
    rw [memRead, List.length_take_of_le]
    exact (not_not.1 hlen).ge

/-- Settles O51: SK holds the derived subkeys after the key schedule, and the blocks are transformed under SK; every
other register is written before it is read. -/
theorem sequencerIgnoresOldWorkingState : Obligations.SequencerIgnoresOldWorkingState := by
  intro i s w
  unfold sequencedResult
  cases hkey : validateKey (keyOperand s) with
  | error k => exact (resultOf_of_invalid i s k hkey).symm
  | ok u =>
    cases i with
    | ksch => simp only [resultOf, kschResult, hkey, scheduleSteps_sk]
    | encb | decb =>
      simp only [resultOf, blockResult, hkey]
      cases hblock : blockOperand s with
      | error k => rfl
      | ok block => simp only [messageSteps_block _ block _ (length_of_blockOperand hblock), scheduleSteps_sk]
    | encm => simp only [resultOf, encryptMessage, hkey, messageSteps_eq, scheduleSteps_sk]
    | decm =>
      obtain ⟨p, hp, -⟩ := transformBlocks_ok (deriveSubkeys (keyBytes (keyOperand s))) .decrypt
        (splitBlocks (messageOperand s))
      simp only [resultOf, decryptMessage, hkey, messageSteps_eq, scheduleSteps_sk, hp]

end Sys2Proof.Machine
end

section
/-! Memory (spec file 20_memory.md): a command's output is there whole or not at all, the error kind that no command's
rule raises, and the order of the blocks, which the output does not show. -/

/-! ### The codes of the error kinds -/
namespace Sys2Proof.Machine

/-- The host reads the kind back from its code (rule R185). -/
@[simp] theorem kindOfCode_code (k : ErrorKind) : kindOfCode k.code = some k := by
  cases k <;> rfl

theorem ErrorKind.code_injective : Function.Injective ErrorKind.code := by
  intro k k' h
  have hread := congrArg kindOfCode h
  simpa using hread

/-- No kind has the code of a success (rules R25 and R185). -/
theorem ErrorKind.code_ne_zero (k : ErrorKind) : k.code ≠ 0 := by
  cases k <;> decide

/-- ERR holds a kind's code just when that kind ended the command (rule R25). -/
theorem errValue_eq_code_iff {α : Type} {r : Except ErrorKind α} {k : ErrorKind} :
    errValue r = k.code ↔ r = .error k := by
  cases r with
  | ok a => exact ⟨fun h => absurd h.symm k.code_ne_zero, nofun⟩
  | error k' => simp [errValue, ErrorKind.code_injective.eq_iff]

/-! ### All or nothing -/

/-- Settles O15: OBUF and ERR are written from one answer of the rule, and no kind's code is 0. -/
theorem commandIsAllOrNothing : Obligations.CommandIsAllOrNothing := by
  intro i s
  refine ⟨_, exec_eq_next i s, ?_⟩
  cases resultOf i s with
  | ok out => exact .inl ⟨rfl, rfl⟩
  | error k => exact .inr ⟨k, rfl, rfl, rfl, k.code_ne_zero⟩

/-! ### The kinds a command can end with -/

/-- Everything a command's rule can answer under a valid key: each command succeeds, unless the input of ENCB or DECB
is not one block (rules R151 and R152), or that of DECM is not whole blocks (rule R168). -/
theorem resultOf_cases_of_valid (i : Instr) (s : State) (hkey : validateKey s.keybuf = .ok ()) :
    (∃ out, resultOf i s = .ok out) ∨
    ((i = .encb ∨ i = .decb) ∧ s.ilen ≠ 8 ∧ resultOf i s = .error .malformedBlock) ∨
    (i = .decm ∧ s.ilen % 8 ≠ 0 ∧ resultOf i s = .error .malformedCiphertext) := by
  cases i with
  | ksch =>
    obtain ⟨out, hout, -⟩ := subkeyBytes_ok (deriveSubkeys (keyBytes s.keybuf)).toList
    exact .inl ⟨out, by simp only [resultOf, kschResult, keyOperand, hkey, hout]⟩
  | encb | decb =>
    simp only [resultOf, blockResult, keyOperand, hkey, blockOperand]
    by_cases hlen : s.ilen = 8
    · left
      rw [if_neg (not_not.2 hlen)]
      obtain ⟨out, -, hout⟩ := transform_ok (memRead s.ibuf 0 8) (deriveSubkeys (keyBytes s.keybuf)) _
      exact ⟨out, hout⟩
    · simp [hlen]
  | encm =>
    obtain ⟨out, hout, -⟩ := transformBlocks_ok (deriveSubkeys (keyBytes s.keybuf)) .encrypt
      (splitBlocks (textToBytes s.ibuf))
    exact .inl ⟨out, by simp only [resultOf, encryptMessage, keyOperand, messageOperand_eq, hkey, hout]⟩
  | decm =>
    obtain ⟨out, hout, -⟩ := transformBlocks_ok (deriveSubkeys (keyBytes s.keybuf)) .decrypt (splitBlocks s.ibuf)
    simp only [resultOf, decryptMessage, keyOperand, messageOperand_eq, hkey, hout]
    by_cases hlen : s.ibuf.length % 8 = 0
    · simp [hlen]
    · simp [hlen, State.ilen]

/-- The kinds of rule R185's table, command by command. -/
theorem kind_of_resultOf_error {i : Instr} {s : State} {k : ErrorKind} (h : resultOf i s = .error k) :
    k = .invalidKeyLength ∨ k = .invalidKeyValue ∨ (k = .malformedCiphertext ∧ i = .decm) ∨
    (k = .malformedBlock ∧ (i = .encb ∨ i = .decb)) := by
  rcases validateKey_cases s.keybuf with ⟨-, hkey⟩ | ⟨-, -, hkey⟩ | ⟨-, -, hkey⟩
  · cases (resultOf_of_invalid i s _ hkey).symm.trans h
    exact .inl rfl
  · cases (resultOf_of_invalid i s _ hkey).symm.trans h
    exact .inr (.inl rfl)
  · rcases resultOf_cases_of_valid i s hkey with ⟨out, hres⟩ | ⟨hi, -, hres⟩ | ⟨hi, -, hres⟩
    · cases hres.symm.trans h
    · cases hres.symm.trans h
      exact .inr (.inr (.inr ⟨rfl, hi⟩))
    · cases hres.symm.trans h
      exact .inr (.inr (.inl ⟨rfl, hi⟩))

theorem resultOf_ne_malformedBitLength (i : Instr) (s : State) : resultOf i s ≠ .error .malformedBitLength := by
  intro h
  rcases kind_of_resultOf_error h with h | h | ⟨h, -⟩ | ⟨h, -⟩ <;> cases h

/-- An issued byte leaves in ERR what its rule answered, or the code of `IllegalCommand` (rules R73 and R76). -/
theorem issue_err (c : Byte) (s : State) : ∃ t, issue c s = .next t ∧
    ((∃ i, t.err = errValue (resultOf i s)) ∨ t.err = ErrorKind.illegalCommand.code) := by
  unfold issue
  split
  · next i _ => exact ⟨_, exec_eq_next i s, .inl ⟨i, rfl⟩⟩
  · exact ⟨_, rfl, .inr rfl⟩

/-- Settles O16: a kind is told from the others by its code, and this one is no answer of a rule. -/
theorem bitLengthErrorIsUnreachable : Obligations.BitLengthErrorIsUnreachable := by
  refine ⟨resultOf_ne_malformedBitLength, fun c s => ?_, fun k hk => ErrorKind.code_injective hk⟩
  obtain ⟨t, hnext, ⟨i, herr⟩ | herr⟩ := issue_err c s
  · refine ⟨t, hnext, fun h4 => resultOf_ne_malformedBitLength i s ?_⟩
    exact errValue_eq_code_iff.1 (herr.symm.trans h4)
  · exact ⟨t, hnext, by rw [herr]; decide⟩

/-! ### The order of the blocks -/

theorem length_memRead {buf : ByteSeq} {a n : Nat} (h : a + n ≤ buf.length) : (memRead buf a n).length = n := by
  rw [memRead, List.length_take_of_le (by rw [List.length_drop]; omega)]

theorem getElem?_memRead (buf : ByteSeq) (a n k : Nat) (hk : k < n) : (memRead buf a n)[k]? = buf[a + k]? := by
  rw [memRead, List.getElem?_take_of_lt hk, List.getElem?_drop]

/-- Copying block `b` of `out` into a buffer of its length changes just the bytes of that block. -/
theorem getElem?_memWrite_block {buf out : ByteSeq} (hlen : buf.length = out.length) {b : Nat}
    (hb : b < out.length / 8) (j : Nat) :
    (memWrite buf (8 * b) (memRead out (8 * b) 8))[j]? = if j / 8 = b then out[j]? else buf[j]? := by
  have hread : (memRead out (8 * b) 8).length = 8 := length_memRead (by omega)
  split
  · next hj =>
    obtain ⟨k, hk, rfl⟩ : ∃ k < 8, j = 8 * b + k := ⟨j - 8 * b, by omega, by omega⟩
    have hsame := memRead_memWrite_same buf (8 * b) (memRead out (8 * b) 8) (by omega)
    rw [hread] at hsame
    rw [← getElem?_memRead _ _ 8 k hk, hsame, getElem?_memRead _ _ _ _ hk]
  · next hj => exact getElem?_memWrite_other _ _ _ (by omega) _ (by omega)

/-- The blocks of `order`, whatever their order, end up in the buffer, and the other blocks stay as they were. -/
theorem transformInOrder_ok {sk : Subkeys} {d : Direction} {m out : ByteSeq} (hlen : out.length = m.length)
    (hout : ∀ b < m.length / 8, transform (blockAt m b) sk d = .ok (memRead out (8 * b) 8)) (order : List Nat)
    (horder : ∀ b ∈ order, b < m.length / 8) (buf : ByteSeq) (hbuf : buf.length = m.length) :
    ∃ res, transformInOrder sk d m order buf = .ok res ∧
      ∀ j : Nat, res[j]? = if j / 8 ∈ order then out[j]? else buf[j]? := by
  induction order generalizing buf with
  | nil => exact ⟨buf, rfl, by simp⟩
  | cons b rest ih =>
    obtain ⟨hb, hrest⟩ := List.forall_mem_cons.1 horder
    have hread : (memRead out (8 * b) 8).length = 8 := length_memRead (by omega)
    have hnext : (memWrite buf (8 * b) (memRead out (8 * b) 8)).length = m.length := by
      rw [length_memWrite _ _ _ (by omega), hbuf]
    obtain ⟨res, hres, hbytes⟩ := ih hrest _ hnext
    refine ⟨res, by simp only [transformInOrder, hout b hb, hres], fun j => ?_⟩
    rw [hbytes, getElem?_memWrite_block (hbuf.trans hlen.symm) (by omega)]
    by_cases hj : j / 8 = b <;> simp [hj]

/-- Settles O49: a permutation of the indices names every block, so no byte of the old buffer is left. -/
theorem blockOrderIsUnobservable : Obligations.BlockOrderIsUnobservable := by
  intro sk d m order buf hm hperm hbuf
  obtain ⟨out, hout, -, hblocks⟩ := transformBlocks_ok sk d (splitBlocks m)
  have hlen : out.length = m.length := length_of_transformBlocks_splitBlocks hm hout
  have hmem : ∀ b, b ∈ order ↔ b < m.length / 8 := fun b => hperm.mem_iff.trans List.mem_range
  have htransform : ∀ b < m.length / 8, transform (blockAt m b) sk d = .ok (memRead out (8 * b) 8) := by
    intro b hb
    rw [← hblocks b (by rwa [length_splitBlocks]), getElem_splitBlocks, blockAt]
  obtain ⟨res, hres, hbytes⟩ := transformInOrder_ok hlen htransform order (fun b => (hmem b).1) buf hbuf
  have heq : res = out := by
    apply List.ext_getElem?
    intro j
    rw [hbytes]
    split
    · rfl
    · next hj =>
      rw [hmem] at hj
      rw [List.getElem?_eq_none (by omega), List.getElem?_eq_none (by omega)]
  exact ⟨out, hout, heq ▸ hres⟩

end Sys2Proof.Machine
end

section
/-! The command encoding (spec file 30_encoding.md): the fields of a command byte, which bytes are commands, sequences
of commands, the issue of a command, the calls as sequences of host moves, and the line form of bytes. -/

/-! ### The fields of format C -/
namespace Sys2Proof

/-- Each field of a command byte is the bit range of rule R70. -/
theorem toNat_splitWord (c : Byte) : (splitWord c).zero.toNat = c.toNat / 16 ∧
    (splitWord c).fn.toNat = c.toNat / 2 % 8 ∧ (splitWord c).dir.toNat = c.toNat % 2 := by
  have hfield (a n : Nat) : (c.extractLsb' a n).toNat = c.toNat / 2 ^ a % 2 ^ n := by
    rw [BitVec.extractLsb'_toNat, Nat.shiftRight_eq_div_pow]
  have hzero : (splitWord c).zero.toNat = c.toNat / 2 ^ 4 % 2 ^ 4 := hfield 4 4
  have hdir : (splitWord c).dir.toNat = c.toNat / 2 ^ 0 % 2 ^ 1 := hfield 0 1
  exact ⟨by omega, hfield 1 3, by omega⟩

/-- The fields stand at the places 16, 2 and 1 of the byte (rule R70). -/
theorem toNat_joinWord (w : CmdWord) :
    (joinWord w).toNat = 16 * w.zero.toNat + 2 * w.fn.toNat + w.dir.toNat := by
  rw [joinWord, BitVec.toNat_append, BitVec.toNat_append, ← Nat.shiftLeft_add_eq_or_of_lt w.fn.isLt,
    ← Nat.shiftLeft_add_eq_or_of_lt w.dir.isLt, Nat.shiftLeft_eq, Nat.shiftLeft_eq]
  omega

theorem joinWord_splitWord (c : Byte) : joinWord (splitWord c) = c := by
  obtain ⟨hzero, hfn, hdir⟩ := toNat_splitWord c
  apply BitVec.eq_of_toNat_eq
  rw [toNat_joinWord]
  omega

theorem splitWord_joinWord (w : CmdWord) : splitWord (joinWord w) = w := by
  obtain ⟨hzero, hfn, hdir⟩ := toNat_splitWord (joinWord w)
  rw [toNat_joinWord] at hzero hfn hdir
  have hz := w.zero.isLt
  have hf := w.fn.isLt
  have hd := w.dir.isLt
  rw [CmdWord.mk.injEq]
  refine ⟨BitVec.eq_of_toNat_eq ?_, BitVec.eq_of_toNat_eq ?_, BitVec.eq_of_toNat_eq ?_⟩
  all_goals omega

/-- Settles O5: both ways round the fields are the digits of one number. -/
theorem commandWordFields : Obligations.CommandWordFields :=
  ⟨joinWord_splitWord, splitWord_joinWord, toNat_splitWord⟩

/-! ### Which bytes are commands -/

/-- A byte decodes to a command just when it is that command's byte (rule R71). -/
theorem decodeByte_eq_ok_iff {c : Byte} {i : Instr} : decodeByte c = .ok i ↔ c = encodeByte i := by
  constructor
  · intro h
    have hrow := decodeByte_toOption c
    rw [h, Except.toOption] at hrow
    split_ifs at hrow with h2 h4 h5 h6 h7
    all_goals
      cases hrow
      assumption
  · rintro rfl
    exact decodeByte_encodeByte i

/-- A byte that the decoder rejects is one of the reserved bytes of rule R73. -/
theorem reservedByte_of_decodeByte_error {c : Byte} {r : Reject} (h : decodeByte c = .error r) : ReservedByte c := by
  have hrow := decodeByte_toOption c
  rw [h, Except.toOption] at hrow
  split_ifs at hrow with h2 h4 h5 h6 h7
  unfold ReservedByte
  bv_omega

theorem reservedByte_iff (c : Byte) : ReservedByte c ↔ ∃ r, decodeByte c = .error r :=
  ⟨Machine.decodeByte_of_reserved, fun ⟨_, h⟩ => reservedByte_of_decodeByte_error h⟩

/-- The rows of rule R71's table are the commands with their bytes. -/
theorem mem_commandTable_iff (c : Byte) (i : Instr) :
    (c, i) ∈ [((0x02 : Byte), Instr.ksch), (0x04, .encb), (0x05, .decb), (0x06, .encm), (0x07, .decm)] ↔
      c = encodeByte i := by
  cases i <;> simp <;> rfl

/-- Settles O2: the decoder answers the command whose byte it is given, and rejects the rest. -/
theorem exactlyFiveBytesAreCommands : Obligations.ExactlyFiveBytesAreCommands :=
  ⟨fun c i => decodeByte_eq_ok_iff.trans (mem_commandTable_iff c i).symm, reservedByte_iff⟩

/-- Settles O1: the five bytes of rule R71's table, each decoded. -/
theorem commandBytesDecode : Obligations.CommandBytesDecode := by
  refine ⟨?_, ?_, ?_, ?_, ?_⟩
  all_goals rfl

/-! ### Sequences of commands -/

/-- Settles O4: the first byte is the command's, and the rest is left. -/
theorem decoderReadsOneByte : Obligations.DecoderReadsOneByte := by
  intro i rest _
  simp [encode, decode, decodeByte_encodeByte]

/-- A sequence of bytes decodes when its first byte is a command's and the rest decodes. -/
theorem decodeAll_cons_eq_ok_iff {c : Byte} {rest : ByteSeq} {is : List Instr} :
    decodeAll (c :: rest) = .ok is ↔ ∃ i is', is = i :: is' ∧ c = encodeByte i ∧ decodeAll rest = .ok is' := by
  rw [decodeAll]
  constructor
  · intro h
    split at h
    · next i hi =>
      split at h
      · next is' hrest =>
        cases h
        exact ⟨i, is', rfl, decodeByte_eq_ok_iff.1 hi, hrest⟩
      · cases h
    · cases h
  · rintro ⟨i, is', rfl, rfl, hrest⟩
    rw [decodeByte_encodeByte, hrest]

@[simp] theorem encodeAll_nil : encodeAll [] = [] := rfl

@[simp] theorem encodeAll_cons (i : Instr) (is : List Instr) : encodeAll (i :: is) = encodeByte i :: encodeAll is := rfl

theorem encodeAll_eq_map (is : List Instr) : encodeAll is = is.map encodeByte := by
  induction is with
  | nil => rfl
  | cons i is ih => rw [encodeAll_cons, ih, List.map_cons]

/-- A command sequence's bytes decode to that sequence, and no other bytes do (rules R70 and R71). -/
theorem decodeAll_eq_ok_iff {bytes : ByteSeq} {is : List Instr} :
    decodeAll bytes = .ok is ↔ bytes = encodeAll is := by
  induction bytes generalizing is with
  | nil => cases is <;> simp [decodeAll]
  | cons c rest ih =>
    rw [decodeAll_cons_eq_ok_iff]
    constructor
    · rintro ⟨i, is', rfl, rfl, hrest⟩
      rw [encodeAll_cons, ih.1 hrest]
    · intro h
      cases is with
      | nil => cases h
      | cons i is' =>
        obtain ⟨hc, hrest⟩ := List.cons.inj h
        exact ⟨i, is', rfl, hc, ih.2 hrest⟩

/-- Settles O3: an encoding is its commands' bytes one by one, and the decoder reads it byte by byte. -/
theorem commandStreamRoundTrip : Obligations.CommandStreamRoundTrip :=
  ⟨fun is => by rw [encodeAll_eq_map, List.length_map], fun _ _ => decodeAll_eq_ok_iff⟩

end Sys2Proof

/-! ### The issue of a command -/
namespace Sys2Proof.Machine

/-- A byte that is no command's is rejected (rule R71). -/
theorem issue_of_ne_encodeByte {c : Byte} (h : ∀ i, c ≠ encodeByte i) (s : State) :
    issue c s = .next (raiseError .illegalCommand s) := by
  cases hd : decodeByte c with
  | ok i => exact absurd (decodeByte_eq_ok_iff.1 hd) (h i)
  | error r => exact issue_of_reserved ((reservedByte_iff c).2 ⟨r, hd⟩) s

/-- The issue of a command's byte is the end of that command over the answer of its rule (rule R76). -/
theorem issue_encodeByte_of_resultOf {i : Instr} {s : State} {r : Except ErrorKind ByteSeq} (h : resultOf i s = r) :
    issue (encodeByte i) s = endCommand r s := by
  rw [issue_encodeByte, exec_eq_endCommand, h]

/-- Settles O7: a byte is no command's, or the command's rule answers a kind or the bytes. -/
theorem issueEndsInOneNextState : Obligations.IssueEndsInOneNextState := by
  intro c s
  refine ⟨fun hno => issue_of_ne_encodeByte hno s, ?_, ?_⟩
  · rintro i rfl
    exact ⟨fun _ hkind => issue_encodeByte_of_resultOf hkind, fun _ hout => issue_encodeByte_of_resultOf hout⟩
  · obtain ⟨out, e, hnext⟩ := issue_next c s
    exact ⟨_, hnext⟩

/-- Settles O8: the move taken is the issue of a reserved byte, which reads no buffer. -/
theorem reservedByteIsIllegalCommand : Obligations.ReservedByteIsIllegalCommand :=
  fun _ _ _ hmoves hc => (step_of_moves hmoves).trans (issue_of_reserved hc _)

/-! ### The answer of each command's rule on what the host loaded -/

theorem validateKey_of_validKey {key : List Int} (h : ValidKey key) : validateKey key = .ok () := by
  obtain ⟨hlen, hrange⟩ := h
  rcases validateKey_cases key with ⟨hne, -⟩ | ⟨-, ⟨e, he, hout⟩, -⟩ | ⟨-, -, hok⟩
  · exact absurd hlen hne
  · have hin := hrange e he
    omega
  · exact hok

theorem resultOf_encm (s : State) : resultOf .encm s = encryptMessage s.keybuf s.ibuf := by
  rw [resultOf, messageOperand_eq, keyOperand]

theorem resultOf_decm (s : State) : resultOf .decm s = decryptMessage s.keybuf s.ibuf := by
  rw [resultOf, messageOperand_eq, keyOperand]

theorem resultOf_ksch_of_validKey {s : State} (h : ValidKey s.keybuf) :
    resultOf .ksch s = subkeyBytes (deriveSubkeys (keyBytes s.keybuf)).toList := by
  simp only [resultOf, kschResult, keyOperand, validateKey_of_validKey h]

theorem blockOperand_of_length {s : State} (h : s.ibuf.length = 8) : blockOperand s = .ok s.ibuf := by
  rw [blockOperand, State.ilen, if_neg (not_not.2 h), memRead, List.drop_zero, List.take_of_length_le h.le]

/-- Under a valid key a block command transforms the one block of IBUF (rules R151 and R152). -/
theorem blockResult_of_validKey {s : State} (hkey : ValidKey s.keybuf) (hlen : s.ibuf.length = 8) (d : Direction) :
    blockResult d s = transform s.ibuf (deriveSubkeys (keyBytes s.keybuf)) d := by
  simp only [blockResult, keyOperand, validateKey_of_validKey hkey, blockOperand_of_length hlen]

/-! ### The end of a command as the host sees it -/

/-- What a command leaves in OBUF and ERR for each answer of its rule (rules R76 and R191). -/
theorem endCommand_outputs (r : Except ErrorKind ByteSeq) (s : State) : ∃ t, endCommand r s = .next t ∧
    (∀ out, r = .ok out → t.obuf = out ∧ t.err = 0) ∧ (∀ k, r = .error k → t.obuf = [] ∧ t.err = k.code) := by
  cases r with
  | ok out => exact ⟨_, rfl, fun _ h => ⟨Except.ok.inj h, rfl⟩, nofun⟩
  | error k => exact ⟨_, rfl, nofun, fun _ h => ⟨rfl, congrArg ErrorKind.code (Except.error.inj h)⟩⟩

/-! ### The document's calls -/

/-- A run goes on from the state a step leaves. -/
theorem run_succ_of_step {M : Host.Core} {s t : M.State} (h : M.step s = .next t) (k : Nat) :
    M.run (k + 1) s = M.run k t := by
  rw [Host.Core.run, h]

/-- A run takes the host's next move and goes on from the state it leaves (rule R69). -/
theorem run_succ_of_moves {s t : State} {m : HostMove} {rest : List HostMove} (h : s.moves = m :: rest)
    (hm : hostMove m { s with moves := rest } = .next t) (k : Nat) : core.run (k + 1) s = core.run k t :=
  run_succ_of_step (M := core) ((step_of_moves h).trans hm) k

/-- A mnemonic as the next move ends its command with the answer of the command's rule (rules R76 and R81). -/
theorem run_mnemonicMove {s : State} {i : Instr} {rest : List HostMove} (h : s.moves = mnemonicMove i :: rest)
    {r : Except ErrorKind ByteSeq} (hr : resultOf i s = r) : core.run 1 s = endCommand r { s with moves := rest } := by
  have hissue : hostMove (mnemonicMove i) { s with moves := rest } = endCommand r { s with moves := rest } :=
    issue_encodeByte_of_resultOf ((resultOf_congr i _ s rfl rfl).trans hr)
  rw [endCommand_eq] at hissue ⊢
  exact run_succ_of_moves h hissue 0

/-- A call ends with what its command's rule answers on the loaded key and data (rule R82). -/
theorem run_call_outputs {s : State} {key : List Int} {data : ByteSeq} {i : Instr} {rest : List HostMove}
    (h : s.moves = [.loadKey key, .loadIn data, mnemonicMove i] ++ rest) {r : Except ErrorKind ByteSeq}
    (hr : resultOf i { s with keybuf := key, ibuf := data } = r) : ∃ t, core.run 3 s = .next t ∧
      (∀ out, r = .ok out → t.obuf = out ∧ t.err = 0) ∧ (∀ k, r = .error k → t.obuf = [] ∧ t.err = k.code) := by
  have hload : core.run 3 s = core.run 1 { s with keybuf := key, ibuf := data, moves := mnemonicMove i :: rest } :=
    (run_succ_of_moves h rfl 2).trans (run_succ_of_moves rfl rfl 1)
  have hlast := run_mnemonicMove (s := { s with keybuf := key, ibuf := data, moves := mnemonicMove i :: rest }) rfl
    ((resultOf_congr i _ _ rfl rfl).trans hr)
  obtain ⟨t, hnext, hout⟩ := endCommand_outputs r { s with keybuf := key, ibuf := data, moves := rest }
  exact ⟨t, hload.trans (hlast.trans hnext), hout⟩

/-- The call of a block command on a valid key and one block ends with the transformed block (rule R82). -/
theorem run_blockCall {s : State} {key : List Int} {data : ByteSeq} {i : Instr} {d : Direction} {rest : List HostMove}
    (hi : ∀ u, resultOf i u = blockResult d u) (hkey : ValidKey key) (hlen : data.length = 8)
    (h : s.moves = [.loadKey key, .loadIn data, mnemonicMove i] ++ rest) :
    ∃ t, core.run 3 s = .next t ∧ t.err = 0 ∧ transform data (deriveSubkeys (keyBytes key)) d = .ok t.obuf := by
  obtain ⟨c, -, hc⟩ := transform_ok data (deriveSubkeys (keyBytes key)) d
  obtain ⟨t, hnext, hok, -⟩ := run_call_outputs h ((hi _).trans (blockResult_of_validKey hkey hlen d))
  obtain ⟨hobuf, herr⟩ := hok c hc
  exact ⟨t, hnext, herr, hobuf ▸ hc⟩

/-- `LOADKEY key ; KSCH` on a valid key ends with the bytes of the subkeys (rule R82). -/
theorem run_kschCall {s : State} {key : List Int} {rest : List HostMove} (hkey : ValidKey key)
    (h : s.moves = [.loadKey key, mnemonicMove .ksch] ++ rest) :
    ∃ t, core.run 2 s = .next t ∧ t.err = 0 ∧ subkeyBytes (deriveSubkeys (keyBytes key)).toList = .ok t.obuf := by
  obtain ⟨c, hc, -⟩ := subkeyBytes_ok (deriveSubkeys (keyBytes key)).toList
  have hlast := run_mnemonicMove (s := { s with keybuf := key, moves := mnemonicMove .ksch :: rest }) rfl
    ((resultOf_ksch_of_validKey hkey).trans hc)
  exact ⟨_, (run_succ_of_moves h rfl 1).trans hlast, rfl, hc⟩

/-- Settles O45: a call is its command's rule on the loaded key and data. -/
theorem callsAreHostSequences : Obligations.CallsAreHostSequences :=
  fun _ _ _ _ => ⟨fun h => run_call_outputs h (resultOf_encm _), fun h => run_call_outputs h (resultOf_decm _),
    run_blockCall (fun _ => rfl), run_blockCall (fun _ => rfl), run_kschCall⟩

/-! ### The line form of bytes -/

theorem byte_of_mem_toLines {bytes : ByteSeq} {x : Int} (h : x ∈ toLines bytes) : 0 ≤ x ∧ x ≤ 255 := by
  obtain ⟨b, -, rfl⟩ := List.mem_map.1 h
  omega

/-- Settles O57: every line is a byte's value, and a byte is read back from its value. -/
theorem linesRoundTrip : Obligations.LinesRoundTrip := by
  intro bytes
  have hrange : ∀ x ∈ toLines bytes, 0 ≤ x ∧ x ≤ 255 := fun _ => byte_of_mem_toLines
  have hback : (toLines bytes).map (BitVec.ofInt 8) = bytes := keyBytes_bytes bytes
  refine ⟨hrange, ?_⟩
  rw [ofLines, if_pos (by simpa using hrange), hback]

end Sys2Proof.Machine
end

section
/-! The BitConverter unit (spec file 40_bitconverter.md): bytes to bits and back, the padding of a text, and the text a
host can present. -/

/-! ### Bytes and bits -/
namespace Sys2Proof.Machine

/-- Bit j of a byte is a binary digit of its value (rule R50). -/
theorem toNat_getMsbD_byte (b : Byte) {j : Nat} (hj : j < 8) : (b.getMsbD j).toNat = b.toNat / 2 ^ (7 - j) % 2 := by
  rw [BitVec.getMsbD_eq_getLsbD, decide_eq_true hj, Bool.true_and, BitVec.getLsbD, Nat.toNat_testBit]

/-- Settles O26: the bit is one of byte k's, and that is a digit of the byte's value. -/
theorem bytesToBitsMostSignificantFirst : Obligations.BytesToBitsMostSignificantFirst := by
  intro bytes k j hk hj
  rw [getMsbD_bytesToBits bytes k j hk hj, toNat_getMsbD_byte _ hj]

/-- A byte is the sum of its binary digits, the most significant first (rule R11). -/
theorem toNat_byte_eq_sum (b : Byte) :
    b.toNat = ((List.range 8).map fun j => (b.getMsbD j).toNat * 2 ^ (7 - j)).sum := by
  have hdigits : ((List.range 8).map fun j => (b.getMsbD j).toNat * 2 ^ (7 - j)) =
      (List.range 8).map fun j => b.toNat / 2 ^ (7 - j) % 2 * 2 ^ (7 - j) :=
    List.map_congr_left fun j hj => by rw [toNat_getMsbD_byte b (List.mem_range.1 hj)]
  have hrange : List.range 8 = [0, 1, 2, 3, 4, 5, 6, 7] := rfl
  rw [hdigits, hrange]
  simp only [List.map_cons, List.map_nil, List.sum_cons, List.sum_nil]
  omega

/-- A bit of `bytesToBits` by its own index. -/
theorem getMsbD_bytesToBits_of_lt (bytes : ByteSeq) {i : Nat} (hk : i / 8 < bytes.length) :
    (bytesToBits bytes).getMsbD i = bytes[i / 8].getMsbD (i % 8) := by
  rw [← getMsbD_bytesToBits bytes _ _ hk (Nat.mod_lt i (by decide)), Nat.div_add_mod]

theorem bitsToBytes_of_not_dvd {m : Nat} (v : BitVec m) (h : m % 8 ≠ 0) :
    bitsToBytes v = .error .malformedBitLength := by
  unfold bitsToBytes
  rw [if_pos h]

/-- What `bitsToBytes` packs: byte k has bits 8k to 8k + 7 of the vector. -/
theorem bitsToBytes_bits {m : Nat} (v : BitVec m) (h : m % 8 = 0) : ∃ bytes : ByteSeq, bitsToBytes v = .ok bytes ∧
    bytes.length = m / 8 ∧
    ∀ (k j : Nat) (hk : k < bytes.length), j < 8 → bytes[k].getMsbD j = v.getMsbD (8 * k + j) := by
  refine ⟨_, bitsToBytes_of_dvd v h, by simp, ?_⟩
  intro k j hk hj
  have hk' : k < m / 8 := by simpa using hk
  simp only [List.getElem_map, List.getElem_range]
  exact getMsbD_subvec v (8 * k) 8 j hj (by omega)

theorem bitsToBytes_bytesToBits (bytes : ByteSeq) : bitsToBytes (bytesToBits bytes) = .ok bytes := by
  obtain ⟨packed, hok, hlen, hbits⟩ := bitsToBytes_bits (bytesToBits bytes) (Nat.mul_mod_right 8 _)
  have hsame : packed = bytes := by
    apply List.ext_getElem (by omega)
    intro k hk hk'
    apply BitVec.eq_of_getMsbD_eq
    intro j hj
    rw [hbits k j hk hj, getMsbD_bytesToBits bytes k j hk' hj]
  rw [hok, hsame]

/-- Settles O27: the packed bytes have the vector's bits, and a byte is the sum of its own. -/
theorem bitsToBytesInvertsBytesToBits : Obligations.BitsToBytesInvertsBytesToBits := by
  refine ⟨fun _ v hm => bitsToBytes_of_not_dvd v hm, ?_, bitsToBytes_bytesToBits⟩
  intro m v hm
  obtain ⟨bytes, hok, hlen, hbits⟩ := bitsToBytes_bits v hm
  refine ⟨bytes, hok, hlen, ?_, ?_⟩
  · intro k hk
    rw [toNat_byte_eq_sum]
    exact congrArg List.sum (List.map_congr_left fun j hj => by rw [hbits k j hk (List.mem_range.1 hj)])
  · intro i hi
    have hk : i / 8 < bytes.length := by omega
    rw [getMsbD_bytesToBits_of_lt bytes hk, hbits _ _ hk (Nat.mod_lt i (by decide)), Nat.div_add_mod]

/-! ### The padding of a text -/

theorem padLength_pos (n : Nat) : 1 ≤ padLength n := by
  unfold padLength
  omega

/-- Settles O29: the padded length is a multiple of 8, with a quotient one above the text's. -/
theorem paddingArithmetic : Obligations.PaddingArithmetic := by
  intro n
  obtain ⟨hmod, hdiv⟩ := padLength_mod n
  exact ⟨padLength_pos n, padLength_le n, hmod, by omega, hdiv, by omega⟩

theorem getElem?_textToBytes_of_lt {text : ByteSeq} {k : Nat} (h : k < text.length) :
    (textToBytes text)[k]? = text[k]? :=
  List.getElem?_append_left h

theorem getElem?_textToBytes_of_ge {text : ByteSeq} {k : Nat} (hle : text.length ≤ k)
    (hlt : k < (textToBytes text).length) : (textToBytes text)[k]? = some 0 := by
  rw [length_textToBytes] at hlt
  rw [textToBytes, List.getElem?_append_right hle, List.getElem?_replicate_of_lt (by omega)]

/-- Settles O28: the padded text is the text and then the zero bytes, index by index. -/
theorem textIsPaddedWithZeros : Obligations.TextIsPaddedWithZeros := by
  intro text
  refine ⟨?_, fun _ => getElem?_textToBytes_of_lt, fun _ => getElem?_textToBytes_of_ge⟩
  rw [length_textToBytes, padLength]
  omega

/-- Unpadding drops the padding and what zero characters the text has of its own (rule R96). -/
theorem bytesToText_textToBytes (text : ByteSeq) : bytesToText (textToBytes text) = text.filter (· ≠ 0) := by
  have hpad : (List.replicate (padLength text.length) (0 : Byte)).filter (· ≠ 0) = [] :=
    List.filter_replicate_of_neg (by decide)
  rw [bytesToText, textToBytes, List.filter_append, hpad, List.append_nil]

/-- Settles O30: the text is left as it is just when no character of it is dropped. -/
theorem unpaddingDropsTheZeroCharacters : Obligations.UnpaddingDropsTheZeroCharacters := by
  intro text
  refine ⟨bytesToText_textToBytes text, ?_⟩
  rw [bytesToText_textToBytes, List.filter_eq_self]
  simp only [decide_eq_true_eq]

/-! ### The text of a host -/

theorem textMove_of_ordinals {text : List Char} (h : ∀ c ∈ text, c.toNat ≤ 255) :
    textMove text = some (.loadIn (text.map fun c => BitVec.ofNat 8 c.toNat)) :=
  if_pos (by simpa using h)

theorem textMove_eq_none {text : List Char} (h : ∃ c ∈ text, 255 < c.toNat) : textMove text = none :=
  if_neg (by simpa using h)

/-- Ordinals that fit a byte are the values of their bytes (rule R94). -/
theorem map_toNat_ordinals {text : List Char} (h : ∀ c ∈ text, c.toNat ≤ 255) :
    (text.map fun c => BitVec.ofNat 8 c.toNat).map BitVec.toNat = text.map Char.toNat := by
  rw [List.map_map]
  refine List.map_congr_left fun c hc => ?_
  have hfits : c.toNat < 2 ^ 8 := Nat.lt_succ_of_le (h c hc)
  exact (BitVec.toNat_ofNat c.toNat 8).trans (Nat.mod_eq_of_lt hfits)

/-- Settles O58: the text's move is a load of IBUF, and no byte changes an ordinal that fits one. -/
theorem textCarriesItsOrdinals : Obligations.TextCarriesItsOrdinals := by
  intro text
  refine ⟨fun hfit => ⟨_, _, textMove_of_ordinals hfit, map_toNat_ordinals hfit, ?_⟩, textMove_eq_none⟩
  exact fun _ _ hmoves => step_of_moves hmoves

end Sys2Proof.Machine
end

section
/-! The PermutationEngine unit (spec file 41_permutation.md): a permutation read bit by bit, the permutation of bytes, FP
against IP, the key bits that PC1 drops, and the round function as expansion, XOR, substitution and P. -/

/-! ### A permutation bit by bit -/
namespace Sys2Proof.Machine

/-- Two vectors that agree at the positions the table names are permuted to the same vector (rule R100). -/
theorem permuteBits_congr {m n : Nat} {bits bits' : BitVec m} {T : PermTable m n}
    (h : ∀ p ∈ T.entries.toList, bits.getMsbD (p - 1) = bits'.getMsbD (p - 1)) :
    permuteBits bits T = permuteBits bits' T :=
  congrArg (ofBits n) (List.map_congr_left h)

/-- Settles O31: an output bit is read at its table entry, so nothing but the entries' bits matters. -/
theorem permuteBitsReadsTheTable : Obligations.PermuteBitsReadsTheTable :=
  fun _ _ bits table => ⟨getMsbD_permuteBits bits table, fun _ => permuteBits_congr⟩

/-- Settles O32: `bitsToBytes` decides the error and keeps the permuted bits. -/
theorem permuteBytesThroughBits : Obligations.PermuteBytesThroughBits := by
  intro n bytes table
  refine ⟨bitsToBytes_of_not_dvd _, fun hn => ?_⟩
  obtain ⟨-, hpack, -⟩ := bitsToBytesInvertsBytesToBits
  obtain ⟨out, hok, hlen, -, hbits⟩ := hpack n (permuteBits (bytesToBits bytes) table) hn
  refine ⟨out, hok, hlen, fun i hi => ?_⟩
  rw [hbits i hi, getMsbD_permuteBits _ _ _ hi]

/-- Settles O33: each of the two tables inverts the other. -/
theorem finalPermutationInvertsInitial : Obligations.FinalPermutationInvertsInitial := by
  obtain ⟨-, -, hIP, hFP, -⟩ := squareTableFacts
  exact fun v => ⟨permuteBits_permuteBits_of_inverts IP FP hIP v, permuteBits_permuteBits_of_inverts FP IP hFP v⟩

/-! ### The round function -/

/-- Row j of E is the 4-bit group j with the bit before it and the bit after it, on the ring of 32 (rule R105). -/
theorem E_entry_row : ∀ (j : Fin 8) (t : Fin 6),
    E.entries[6 * j.val + t.val] - 1 = (4 * j.val + t.val + 31) % 32 := by
  decide

/-- A bit of what the S-boxes are given: the expanded half XOR the subkey (rule R145, steps a and b). -/
theorem getMsbD_expand_xor (r : Half) (k : Subkey) {i : Nat} (hi : i < 48) :
    (permuteBits r E ^^^ k).getMsbD i = (r.getMsbD (E.entries[i] - 1) ^^ k.getMsbD i) := by
  rw [BitVec.getMsbD_xor, getMsbD_permuteBits _ _ _ hi]

/-- Settles O59: `x` is the expanded half XOR the subkey, and `feistelF` reads nothing else. -/
theorem roundFunctionBitByBit : Obligations.RoundFunctionBitByBit := by
  refine ⟨fun r k => ⟨permuteBits r E ^^^ k, fun i hi => getMsbD_expand_xor r k hi, ?_, ?_⟩, ?_⟩
  · intro j t hj ht
    rw [getMsbD_expand_xor r k (by omega), E_entry_row ⟨j, hj⟩ ⟨t, ht⟩]
  · exact getMsbD_permuteBits _ P
  · exact fun _ _ _ _ h => congrArg (fun x => permuteBits (substitute x) P) h

/-! ### The parity bits of a key -/

/-- PC1 names no least significant bit of a key byte (rule R109 (e)). -/
theorem mod_eight_ne_zero_of_mem_PC1 {p : Nat} (h : p ∈ PC1.entries.toList) : p % 8 ≠ 0 := by
  obtain ⟨hpos, hle⟩ := PC1.inRange p h
  obtain ⟨hcount, -⟩ := keyTableFacts
  intro hmod
  have hparity : p ∈ parityPositions := by
    simp only [parityPositions, List.mem_cons, List.not_mem_nil, or_false]
    omega
  have hzero : PC1.timesNamed p = 0 :=
    (hcount p (List.mem_range'_1.2 ⟨hpos, by omega⟩)).trans (if_pos hparity)
  exact List.count_eq_zero.1 hzero h

/-- Two integers that differ at most in the least significant bit give bytes with the same seven upper bits. -/
theorem getMsbD_ofInt_of_half_eq {e e' : Int} (h : e / 2 = e' / 2) {j : Nat} (hj : j < 7) :
    (BitVec.ofInt 8 e).getMsbD j = (BitVec.ofInt 8 e').getMsbD j := by
  have hhalf : (BitVec.ofInt 8 e).toNat / 2 = (BitVec.ofInt 8 e').toNat / 2 := by
    simp only [BitVec.toNat_ofInt]
    omega
  have hpow : 2 ^ (7 - j) = 2 * 2 ^ (6 - j) := by rw [← Nat.pow_succ', show 7 - j = 6 - j + 1 by omega]
  apply Function.LeftInverse.injective Bool.ofNat_toNat
  rw [toNat_getMsbD_byte _ (by omega), toNat_getMsbD_byte _ (by omega), hpow, ← Nat.div_div_eq_div_mul, hhalf,
    Nat.div_div_eq_div_mul]

/-- A bit of the key vector is a bit of one key element (rules R27 and R115). -/
theorem getMsbD_blockVector_keyBytes {key : List Int} (h : key.length = 8) {i : Nat} (hi : i < 64) :
    (blockVector (keyBytes key)).getMsbD i = (BitVec.ofInt 8 (key[i / 8])).getMsbD (i % 8) := by
  have hlen : (keyBytes key).length = 8 := by rw [keyBytes, List.length_map, h]
  rw [getMsbD_blockVector _ hlen i hi, getMsbD_bytesToBits_of_lt _ (by omega)]
  simp only [keyBytes, List.getElem_map]

theorem half_eq_of_sameButLowBits {key key' : List Int} (h : SameButLowBits key key') {n : Nat} (hn : n < key.length)
    (hn' : n < key'.length) : key[n] / 2 = key'[n] / 2 := by
  have hentry : (key.map (· / 2))[n]? = (key'.map (· / 2))[n]? := congrArg (·[n]?) h
  simpa [hn, hn'] using hentry

/-- PC1 takes the same halves from two keys that differ at most in the parity bits (rules R110 and R116). -/
theorem initialKeyState_of_sameButLowBits {key key' : List Int} (h : key.length = 8) (h' : key'.length = 8)
    (hsame : SameButLowBits key key') :
    initialKeyState (blockVector (keyBytes key)) = initialKeyState (blockVector (keyBytes key')) := by
  have hpermuted : permuteBits (blockVector (keyBytes key)) PC1 = permuteBits (blockVector (keyBytes key')) PC1 := by
    refine permuteBits_congr fun p hp => ?_
    have hmod := mod_eight_ne_zero_of_mem_PC1 hp
    obtain ⟨hpos, hle⟩ := PC1.inRange p hp
    rw [getMsbD_blockVector_keyBytes h (by omega), getMsbD_blockVector_keyBytes h' (by omega)]
    exact getMsbD_ofInt_of_half_eq (half_eq_of_sameButLowBits hsame _ _) (by omega)
  simp only [initialKeyState, hpermuted]

/-- A key reaches the subkeys through the state that PC1 gives only (rule R121). -/
theorem deriveSubkeys_congr {key key' : ByteSeq}
    (h : initialKeyState (blockVector key) = initialKeyState (blockVector key')) :
    deriveSubkeys key = deriveSubkeys key' := by
  apply Vector.ext
  intro j hj
  rw [getElem_deriveSubkeys _ j hj, getElem_deriveSubkeys _ j hj, h]

theorem deriveSubkeys_of_sameButLowBits {key key' : List Int} (hkey : ValidKey key) (hkey' : ValidKey key')
    (hsame : SameButLowBits key key') : deriveSubkeys (keyBytes key) = deriveSubkeys (keyBytes key') := by
  obtain ⟨hlen, -⟩ := hkey
  obtain ⟨hlen', -⟩ := hkey'
  exact deriveSubkeys_congr (initialKeyState_of_sameButLowBits hlen hlen' hsame)

/-- A valid key reaches the answer of a command's rule through its subkeys only. -/
theorem resultOf_congr_subkeys (i : Instr) {s s' : State} (hkey : ValidKey s.keybuf) (hkey' : ValidKey s'.keybuf)
    (hsub : deriveSubkeys (keyBytes s.keybuf) = deriveSubkeys (keyBytes s'.keybuf)) (hin : s.ibuf = s'.ibuf) :
    resultOf i s = resultOf i s' := by
  have hok := validateKey_of_validKey hkey
  have hok' := validateKey_of_validKey hkey'
  have hblock : blockOperand s = blockOperand s' := by
    rw [blockOperand, blockOperand, State.ilen, State.ilen, hin]
  cases i with
  | ksch => rw [resultOf_ksch_of_validKey hkey, resultOf_ksch_of_validKey hkey', hsub]
  | encb | decb => simp only [resultOf, blockResult, keyOperand, hok, hok', hsub, hblock]
  | encm => simp only [resultOf_encm, encryptMessage, hok, hok', hsub, hin]
  | decm => simp only [resultOf_decm, decryptMessage, hok, hok', hsub, hin]

/-- Settles O52: PC1 drops the parity bits, and a command reads a valid key through its subkeys. -/
theorem parityBitsAreIgnored : Obligations.ParityBitsAreIgnored :=
  ⟨fun _ _ => deriveSubkeys_of_sameButLowBits, fun i _ _ hkey hkey' hsame hin =>
    exec_same_outcome (resultOf_congr_subkeys i hkey hkey' (deriveSubkeys_of_sameButLowBits hkey hkey' hsame) hin)⟩

end Sys2Proof.Machine
end

section
/-! The KeySchedule unit (spec file 42_keyschedule.md): the rotation of a key half as a number, what the subkeys are
taken from, the keys whose subkeys are constant, and KSCH. -/

/-! ### The rotation of a key half -/
namespace Sys2Proof.Machine

/-- `rotl28` is the circular rotation of the library. -/
theorem rotl28_eq_rotateLeft (v : KeyHalf) (n : Nat) : rotl28 v n = v.rotateLeft n := by
  apply BitVec.eq_of_getMsbD_eq
  intro j hj
  rw [getMsbD_rotl28 v n j hj, BitVec.getMsbD_rotateLeft, decide_eq_true hj, Bool.true_and, Nat.add_comm]

/-- The rotation as a number (rule R117): the upper 28 - n bits are the lower ones moved up, and the n bits that fell
off the front stand below them. -/
theorem toNat_rotl28 (v : KeyHalf) {n : Nat} (hn : n < 28) :
    (rotl28 v n).toNat = v.toNat * 2 ^ n % 2 ^ 28 + v.toNat / 2 ^ (28 - n) := by
  have hsplit : 2 ^ 28 = 2 ^ (28 - n) * 2 ^ n := by rw [← pow_add, Nat.sub_add_cancel hn.le]
  have hupper : v.toNat * 2 ^ n % 2 ^ 28 = (v.toNat % 2 ^ (28 - n)) <<< n := by
    rw [hsplit, Nat.mul_mod_mul_right, Nat.shiftLeft_eq]
  have hlower : v.toNat / 2 ^ (28 - n) < 2 ^ n := Nat.div_lt_of_lt_mul (hsplit ▸ v.isLt)
  rw [rotl28_eq_rotateLeft, BitVec.toNat_rotateLeft, Nat.mod_eq_of_lt hn, Nat.shiftLeft_eq, Nat.shiftRight_eq_div_pow,
    hupper, Nat.shiftLeft_add_eq_or_of_lt hlower]

/-- Settles O34: bit by bit by the unit's law, as a number through the library's rotation. -/
theorem rotationOfTheKeyHalf : Obligations.RotationOfTheKeyHalf :=
  fun v => ⟨getMsbD_rotl28 v, fun _ hn => toNat_rotl28 v (by omega), rotl28_rotl28 v 1 1⟩

/-! ### What the subkeys are taken from -/

/-- A rotation by the whole width moves no bit. -/
theorem rotl28_width (v : KeyHalf) : rotl28 v 28 = v := by
  apply BitVec.eq_of_getMsbD_eq
  intro j hj
  rw [getMsbD_rotl28 _ _ _ hj, Nat.add_mod_right, Nat.mod_eq_of_lt hj]

theorem rotateKeyState_width (k : KeyState) : rotateKeyState 28 k = k := by
  simp only [rotateKeyState, rotl28_width]

/-- The totals of the rotation schedule after each round, as rule R120 lists them. -/
theorem sum_take_SHIFTS : ∀ i : Fin 16, (SHIFTS.toList.take (i.val + 1)).sum =
    (#v[1, 2, 4, 6, 8, 10, 12, 14, 15, 17, 19, 21, 23, 25, 27, 28] : Vector Nat 16)[i] := by
  decide

/-- C starts as the bits at the first 28 positions of PC1 (rule R116). -/
theorem getMsbD_initialKeyState_c (k64 : Block) {j : Nat} (hj : j < 28) :
    (initialKeyState k64).c.getMsbD j = k64.getMsbD (PC1.entries[j] - 1) := by
  rw [initialKeyState, getMsbD_subvec _ _ _ _ hj (by decide), getMsbD_permuteBits _ _ _ (by omega)]
  simp only [Nat.zero_add]

/-- D starts as the bits at the last 28 positions of PC1 (rule R116). -/
theorem getMsbD_initialKeyState_d (k64 : Block) {j : Nat} (hj : j < 28) :
    (initialKeyState k64).d.getMsbD j = k64.getMsbD (PC1.entries[28 + j] - 1) := by
  rw [initialKeyState, getMsbD_subvec _ _ _ _ hj (by decide), getMsbD_permuteBits _ _ _ (by omega)]

/-- An entry of PC1 is the position of a bit of the key (rule R102). -/
theorem PC1_entry_lt {j : Nat} (hj : j < 56) : PC1.entries[j] - 1 < 64 := by
  obtain ⟨hpos, hle⟩ := PC1.inRange PC1.entries[j] (by simp)
  omega

/-- Settles O35: the rounds' rotations add up to the totals, and each step of the schedule is read bit by bit. -/
theorem keyRotationsAccumulate : Obligations.KeyRotationsAccumulate := by
  intro key i
  refine ⟨?_, rotateKeyState_width _, fun hlen j hj => ⟨?_, ?_⟩, fun _ _ => ⟨rfl, rfl⟩, fun k => ?_⟩
  · rw [← sum_take_SHIFTS i]
    exact getElem_deriveSubkeys key i i.isLt
  · rw [getMsbD_initialKeyState_c _ hj, getMsbD_blockVector key hlen _ (PC1_entry_lt (by omega))]
  · rw [getMsbD_initialKeyState_d _ hj, getMsbD_blockVector key hlen _ (PC1_entry_lt (by omega))]
  · exact getMsbD_permuteBits _ PC2

/-! ### Keys with constant subkeys -/

/-- Every bit of the vector is `b`. -/
def AllBits {n : Nat} (b : Bool) (v : BitVec n) : Prop := ∀ i, i < n → v.getMsbD i = b

theorem AllBits.eq_zero {n : Nat} {v : BitVec n} (h : AllBits false v) : v = 0#n :=
  BitVec.eq_of_getMsbD_eq fun i hi => (h i hi).trans BitVec.getMsbD_zero.symm

theorem AllBits.eq_allOnes {n : Nat} {v : BitVec n} (h : AllBits true v) : v = BitVec.allOnes n :=
  BitVec.eq_of_getMsbD_eq fun i hi => by rw [h i hi, BitVec.getMsbD_allOnes, decide_eq_true hi]

theorem AllBits.append {m n : Nat} {b : Bool} {u : BitVec m} {v : BitVec n} (hu : AllBits b u) (hv : AllBits b v) :
    AllBits b (u ++ v) := by
  intro i hi
  rw [BitVec.getMsbD_append]
  split
  · exact hv _ (by omega)
  · exact hu _ (by omega)

/-- A permuted vector is constant if the bits its table names are. -/
theorem allBits_permuteBits {m n : Nat} {b : Bool} {bits : BitVec m} {T : PermTable m n}
    (h : ∀ p ∈ T.entries.toList, bits.getMsbD (p - 1) = b) : AllBits b (permuteBits bits T) := by
  intro i hi
  rw [getMsbD_permuteBits _ _ _ hi]
  exact h _ (by simp)

theorem AllBits.permuteBits {m n : Nat} {b : Bool} {bits : BitVec m} (h : AllBits b bits) (T : PermTable m n) :
    AllBits b (permuteBits bits T) := by
  refine allBits_permuteBits fun p hp => h _ ?_
  obtain ⟨hpos, hle⟩ := T.inRange p hp
  omega

theorem AllBits.subvec {m a n : Nat} {b : Bool} {v : BitVec m} (h : AllBits b v) (hfit : a + n ≤ m) :
    AllBits b (subvec v a n) := by
  intro i hi
  rw [getMsbD_subvec _ _ _ _ hi hfit]
  exact h _ (by omega)

/-- A constant key half stays constant under rotation (rule R117). -/
theorem AllBits.rotl28 {b : Bool} {v : KeyHalf} (h : AllBits b v) (n : Nat) : AllBits b (rotl28 v n) := by
  intro j hj
  rw [getMsbD_rotl28 _ _ _ hj]
  exact h _ (Nat.mod_lt _ (by decide))

/-- If the upper seven bits of all eight key elements are `b`, so is every bit that PC1 takes (rule R109 (e)). -/
theorem allBits_permuteBits_PC1 {key : List Int} {b : Bool} (hlen : key.length = 8)
    (hupper : ∀ e ∈ key, ∀ j < 7, (BitVec.ofInt 8 e).getMsbD j = b) :
    AllBits b (permuteBits (blockVector (keyBytes key)) PC1) := by
  refine allBits_permuteBits fun p hp => ?_
  have hmod := mod_eight_ne_zero_of_mem_PC1 hp
  obtain ⟨hpos, hle⟩ := PC1.inRange p hp
  rw [getMsbD_blockVector_keyBytes hlen (by omega)]
  exact hupper _ (List.getElem_mem _) _ (by omega)

/-- Such a key gives subkeys of `b`s only (rule R121): PC1, the rotations and PC2 move bits and make none. -/
theorem allBits_deriveSubkeys {key : List Int} {b : Bool} (hlen : key.length = 8)
    (hupper : ∀ e ∈ key, ∀ j < 7, (BitVec.ofInt 8 e).getMsbD j = b) (i : Nat) (hi : i < 16) :
    AllBits b (deriveSubkeys (keyBytes key))[i] := by
  have hstart := allBits_permuteBits_PC1 hlen hupper
  have hc : AllBits b (initialKeyState (blockVector (keyBytes key))).c := hstart.subvec (by decide)
  have hd : AllBits b (initialKeyState (blockVector (keyBytes key))).d := hstart.subvec (by decide)
  rw [getElem_deriveSubkeys _ i hi]
  exact ((hc.rotl28 _).append (hd.rotl28 _)).permuteBits PC2

/-- Settles O36: 0 and 1 have seven upper bits 0, 254 and 255 seven upper bits 1. -/
theorem constantKeysGiveConstantSubkeys : Obligations.ConstantKeysGiveConstantSubkeys := by
  intro key hlen i
  refine ⟨fun hkey => ?_, fun hkey => ?_⟩
  · refine (allBits_deriveSubkeys hlen (fun e he => ?_) i i.isLt).eq_zero
    rcases hkey e he with rfl | rfl <;> decide
  · refine (allBits_deriveSubkeys hlen (fun e he => ?_) i i.isLt).eq_allOnes
    rcases hkey e he with rfl | rfl <;> decide

/-! ### KSCH -/

/-- The end of a command whose rule answers bytes (rule R76). -/
theorem exec_of_resultOf_ok {i : Instr} {s : State} {out : ByteSeq} (h : resultOf i s = .ok out) :
    exec i s = .next { s with obuf := out, err := 0 } := by
  rw [exec_eq_endCommand, h, endCommand_ok, completeCommand, successCode]

/-- Every command ends with `InvalidKeyLength` on a key of another length than 8 (rule R165). -/
theorem exec_of_klen_ne {s : State} (h : s.klen ≠ 8) (i : Instr) :
    exec i s = .next { s with obuf := [], err := 1 } :=
  exec_of_invalid (k := .invalidKeyLength) (if_pos h) i

/-- Every command ends with `InvalidKeyValue` on a key of eight elements that is not valid (rule R165). -/
theorem exec_of_not_validKey {s : State} (hlen : s.klen = 8) (h : ¬ ValidKey s.keybuf) (i : Instr) :
    exec i s = .next { s with obuf := [], err := 2 } := by
  refine exec_of_invalid (k := .invalidKeyValue) ?_ i
  rcases validateKey_cases s.keybuf with ⟨hne, -⟩ | ⟨-, -, herr⟩ | ⟨-, hrange, -⟩
  · exact absurd hlen hne
  · exact herr
  · exact absurd ⟨hlen, hrange⟩ h

/-- Settles O21: under a valid key the answer is the subkeys' bytes, six to a subkey, and otherwise the key's error. -/
theorem kschOutputsTheSubkeys : Obligations.KschOutputsTheSubkeys := by
  intro s
  refine ⟨fun hkey => ?_, fun h => exec_of_klen_ne h _, fun hlen h => exec_of_not_validKey hlen h _⟩
  obtain ⟨out, hout, hlen, hgroups⟩ := subkeyBytes_ok (deriveSubkeys (keyBytes s.keybuf)).toList
  rw [← resultOf_ksch_of_validKey hkey] at hout
  have hcount := Vector.length_toList (xs := deriveSubkeys (keyBytes s.keybuf))
  refine ⟨out, exec_of_resultOf_ok hout, by omega, fun i => ?_⟩
  rw [← hgroups i (by omega), Vector.getElem_toList, Fin.getElem_fin]

end Sys2Proof.Machine
end

section
/-! The SBox unit (spec file 43_sbox.md): the group of a concatenation, the substitution of one group, and the row and
column a group selects. -/

/-! ### Substitution group by group -/
namespace Sys2Proof.Machine

/-- Group k of a vector put together from groups of `c` bits is the k-th of them. -/
theorem subvec_ofBits_flatMap_bitsOf {α : Type} {c n : Nat} (f : α → BitVec c) (l : List α) (hlen : c * l.length = n)
    {k : Nat} (hk : k < l.length) : subvec (ofBits n (l.flatMap fun a => bitsOf (f a))) (c * k) c = f l[k] := by
  have hgroup : ∀ a, (bitsOf (f a)).length = c := fun a => length_bitsOf (f a)
  have hfit : c * k + c ≤ n := hlen ▸ Nat.mul_le_mul_left c hk
  apply BitVec.eq_of_getMsbD_eq
  intro t ht
  rw [getMsbD_subvec _ _ _ _ ht hfit, getMsbD_ofBits _ ((length_flatMap_uniform _ c hgroup l).trans hlen),
    getD_flatMap_uniform _ c hgroup l false k t hk ht, List.getD_eq_getElem _ _ (by rwa [hgroup]), getElem_bitsOf]

/-- The boxes stand in the order of the groups (rule R140). -/
theorem getElem_boxOrder : ∀ j : Fin 8, boxOrder[j.val]'j.isLt = j := by decide

/-- Group j of the substituted vector is the entry that box j holds for group j of the operand (rule R140). -/
theorem subvec_substitute (x : BitVec 48) (j : Fin 8) :
    subvec (substitute x) (4 * j.val) 4 = BitVec.ofFin (sboxLookup j (subvec x (6 * j.val) 6)) := by
  have hgroup := subvec_ofBits_flatMap_bitsOf (n := 32)
    (fun b : Fin 8 => BitVec.ofFin (w := 4) (sboxLookup b (subvec x (6 * b.val) 6))) boxOrder rfl (k := j) j.isLt
  rwa [getElem_boxOrder j] at hgroup

/-- Settles O38: the four bits of a group, as a number, are the entry that box j holds. -/
theorem substituteGroupByGroup : Obligations.SubstituteGroupByGroup := fun x j =>
  congrArg BitVec.toNat (subvec_substitute x j)

/-! ### The row and the column of a group -/

/-- The row's two bits make a number below 4, so nothing wraps (rule R139). -/
theorem val_sboxRow (g : BitVec 6) : (sboxRow g).val = 2 * (g.getMsbD 0).toNat + (g.getMsbD 5).toNat := by
  have h0 := Bool.toNat_le (g.getMsbD 0)
  have h5 := Bool.toNat_le (g.getMsbD 5)
  exact Nat.mod_eq_of_lt (by omega)

/-- The column's four bits make a number below 16, so nothing wraps (rule R139). -/
theorem val_sboxCol (g : BitVec 6) : (sboxCol g).val =
    8 * (g.getMsbD 1).toNat + 4 * (g.getMsbD 2).toNat + 2 * (g.getMsbD 3).toNat + (g.getMsbD 4).toNat := by
  have h1 := Bool.toNat_le (g.getMsbD 1)
  have h2 := Bool.toNat_le (g.getMsbD 2)
  have h3 := Bool.toNat_le (g.getMsbD 3)
  have h4 := Bool.toNat_le (g.getMsbD 4)
  exact Nat.mod_eq_of_lt (by omega)

/-- Settles O37: the row and the column are the ones the lookup reads. -/
theorem sboxLookupRowAndColumn : Obligations.SboxLookupRowAndColumn := by
  intro box g row col hrow hcol
  obtain rfl : row = sboxRow g := Fin.ext (hrow.trans (val_sboxRow g).symm)
  obtain rfl : col = sboxCol g := Fin.ext (hcol.trans (val_sboxCol g).symm)
  rfl

end Sys2Proof.Machine
end

section
/-! The BlockCipher unit (spec file 44_blockcipher.md): the XOR of two halves as bytes, a round undone on the swapped
halves, the two directions of `transform` as inverses, `transform` bit by bit, and the block commands. -/

/-! ### XOR of two halves -/
namespace Sys2Proof.Machine

theorem subvec_xor {m : Nat} (u v : BitVec m) (a n : Nat) : subvec (u ^^^ v) a n = subvec u a n ^^^ subvec v a n :=
  BitVec.extractLsb'_xor

/-- Settles O39: byte k is cut from the same place of all three vectors, and XOR goes through the cut. -/
theorem byteWiseXorIsBitWise : Obligations.ByteWiseXorIsBitWise := by
  intro u v
  refine ⟨_, _, bitsToBytes_of_dvd u rfl, bitsToBytes_of_dvd v rfl, ?_⟩
  rw [bitsToBytes_of_dvd _ rfl, List.zipWith_map, List.zipWith_self]
  simp only [subvec_xor]

/-! ### A round undone -/

/-- The halves exchanged, as `transform` leaves them (rule R150). -/
def Halves.swap (h : Halves) : Halves := { l := h.r, r := h.l }

/-- A round on the swapped result of the same round gives the swapped input (rule R154, the first fact): the second
XOR with the same value of the round function takes away the first. -/
theorem feistelRound_swap_feistelRound (h : Halves) (k : Subkey) :
    feistelRound (feistelRound h k).swap k = h.swap := by
  have hxor : feistelF h.r k ^^^ (feistelF h.r k ^^^ h.l) = h.l := by
    rw [← BitVec.xor_assoc, BitVec.xor_self, BitVec.zero_xor]
  exact congrArg (Halves.mk h.r) hxor

/-- Settles O41: the exchange is `Halves.swap`. -/
theorem swappedRoundUndoesTheRound : Obligations.SwappedRoundUndoesTheRound :=
  feistelRound_swap_feistelRound

/-- The rounds over the subkeys in reverse order undo the rounds over them, on the swapped halves: the first of them
undoes the last (rule R154). -/
theorem foldl_feistelRound_reverse_swap (ks : List Subkey) (h : Halves) :
    ks.reverse.foldl feistelRound (ks.foldl feistelRound h).swap = h.swap := by
  induction ks generalizing h with
  | nil => rfl
  | cons k ks ih =>
    rw [List.foldl_cons, List.reverse_cons, List.foldl_append, ih]
    exact feistelRound_swap_feistelRound h k

/-! ### The two directions of `transform` -/

/-- The other of the two directions. -/
def Direction.opposite : Direction → Direction
  | .encrypt => .decrypt
  | .decrypt => .encrypt

/-- The direction only turns the list of subkeys round (rule R148). -/
theorem sixteenRounds_decrypt_eq_reverse (sk : Subkeys) (h : Halves) :
    sixteenRounds sk .decrypt h = sixteenRounds sk.reverse .encrypt h := by
  rw [sixteenRounds_decrypt, sixteenRounds_encrypt, Vector.toList_reverse]

/-- Settles O40: the rounds are the only part of `transform` that reads the direction or the subkeys. -/
theorem directionOnlyTurnsTheSubkeysRound : Obligations.DirectionOnlyTurnsTheSubkeysRound := by
  intro b sk
  simp only [transform, transformVector, sixteenRounds_decrypt_eq_reverse]

/-- The sixteen rounds of the other direction undo the sixteen rounds, on the swapped halves. -/
theorem sixteenRounds_opposite_swap (sk : Subkeys) (d : Direction) (h : Halves) :
    sixteenRounds sk d.opposite (sixteenRounds sk d h).swap = h.swap := by
  cases d with
  | encrypt =>
    rw [sixteenRounds_encrypt, Direction.opposite, sixteenRounds_decrypt]
    exact foldl_feistelRound_reverse_swap _ h
  | decrypt =>
    have hundo := foldl_feistelRound_reverse_swap sk.toList.reverse h
    rw [List.reverse_reverse] at hundo
    rw [sixteenRounds_decrypt, Direction.opposite, sixteenRounds_encrypt, hundo]

/-- IP undoes FP, so a block's halves are the last ones, exchanged (rules R149 and R150). -/
theorem initialHalves_finalBlock (h : Halves) : initialHalves (finalBlock h) = h.swap := by
  obtain ⟨-, hIP⟩ := finalPermutationInvertsInitial (h.r ++ h.l)
  rw [initialHalves, finalBlock, hIP, subvec_append_left, subvec_append_right, Halves.swap]

/-- FP undoes IP. -/
theorem finalBlock_swap_initialHalves (b : Block) : finalBlock (initialHalves b).swap = b := by
  obtain ⟨hFP, -⟩ := finalPermutationInvertsInitial b
  have hjoin : (initialHalves b).l ++ (initialHalves b).r = permuteBits b IP :=
    append_subvec (a := 32) (b := 32) (permuteBits b IP)
  rw [finalBlock, Halves.swap, hjoin, hFP]

/-- The two directions are inverse on 64-bit vectors (rule R154). -/
theorem transformVector_opposite (b : Block) (sk : Subkeys) (d : Direction) :
    transformVector (transformVector b sk d) sk d.opposite = b := by
  rw [transformVector, transformVector, initialHalves_finalBlock, sixteenRounds_opposite_swap,
    finalBlock_swap_initialHalves]

/-- Eight bytes are the bytes of their vector. -/
theorem blockBytes_blockVector {bytes : ByteSeq} (h : bytes.length = 8) : blockBytes (blockVector bytes) = bytes := by
  apply List.ext_getElem (by rw [length_blockBytes, h])
  intro k hk hk'
  apply BitVec.eq_of_getMsbD_eq
  intro j hj
  simp only [blockBytes, List.getElem_map, List.getElem_range]
  rw [getMsbD_subvec _ _ _ _ hj (by omega), getMsbD_blockVector _ h _ (by omega), getMsbD_bytesToBits _ _ _ hk' hj]

/-- `transform` of a block of eight bytes, on the level of its vector. -/
theorem transform_of_length {block : ByteSeq} (h : block.length = 8) (sk : Subkeys) (d : Direction) :
    transform block sk d = .ok (blockBytes (transformVector (blockVector block) sk d)) := by
  rw [← transform_blockBytes, blockBytes_blockVector h]

/-- `transform` in the other direction gives the block back (rule R154). -/
theorem transform_opposite {block : ByteSeq} (h : block.length = 8) (sk : Subkeys) (d : Direction) :
    ∃ c : ByteSeq, c.length = 8 ∧ transform block sk d = .ok c ∧ transform c sk d.opposite = .ok block := by
  refine ⟨_, length_blockBytes _, transform_of_length h sk d, ?_⟩
  rw [transform_blockBytes, transformVector_opposite, blockBytes_blockVector h]

/-- Settles O42: each direction undone by its opposite. -/
theorem decryptionInvertsEncryption : Obligations.DecryptionInvertsEncryption :=
  fun sk _ h => ⟨transform_opposite h sk .encrypt, transform_opposite h sk .decrypt⟩

/-! ### `transform` bit by bit -/

/-- The halves after the first `n` of the sixteen rounds (rule R149, step 3). -/
def halvesAfter (sk : Subkeys) (d : Direction) (h : Halves) (n : Nat) : Halves :=
  ((List.finRange 16).take n).foldl (fun h r => feistelRound h sk[subkeyIndex r d]) h

theorem halvesAfter_zero (sk : Subkeys) (d : Direction) (h : Halves) : halvesAfter sk d h 0 = h := rfl

theorem halvesAfter_succ (sk : Subkeys) (d : Direction) (h : Halves) (r : Fin 16) :
    halvesAfter sk d h (r.val + 1) = feistelRound (halvesAfter sk d h r.val) sk[subkeyIndex r d] := by
  rw [halvesAfter, List.take_succ_eq_append_getElem (by simp), List.foldl_append, ← halvesAfter]
  simp

theorem halvesAfter_sixteen (sk : Subkeys) (d : Direction) (h : Halves) :
    halvesAfter sk d h 16 = sixteenRounds sk d h := rfl

/-- L starts as the bits at the first 32 positions of IP (rule R149). -/
theorem getMsbD_initialHalves_l (b : Block) {i : Nat} (hi : i < 32) :
    (initialHalves b).l.getMsbD i = b.getMsbD (IP.entries[i] - 1) := by
  rw [initialHalves, getMsbD_subvec _ _ _ _ hi (by decide), getMsbD_permuteBits _ _ _ (by omega)]
  simp only [Nat.zero_add]

/-- R starts as the bits at the last 32 positions of IP (rule R149). -/
theorem getMsbD_initialHalves_r (b : Block) {i : Nat} (hi : i < 32) :
    (initialHalves b).r.getMsbD i = b.getMsbD (IP.entries[32 + i] - 1) := by
  rw [initialHalves, getMsbD_subvec _ _ _ _ hi (by decide), getMsbD_permuteBits _ _ _ (by omega)]

/-- An entry of IP is the position of a bit of the block (rule R102). -/
theorem IP_entry_lt {j : Nat} (hj : j < 64) : IP.entries[j] - 1 < 64 := by
  obtain ⟨hpos, hle⟩ := IP.inRange IP.entries[j] (by simp)
  omega

/-- The bits of a block's bytes are the bits of the block. -/
theorem getMsbD_bytesToBits_blockBytes (b : Block) {i : Nat} (hi : i < 64) :
    (bytesToBits (blockBytes b)).getMsbD i = b.getMsbD i := by
  rw [← getMsbD_blockVector _ (length_blockBytes b) i hi, blockVector_blockBytes]

/-- Settles O60: the halves are those after each of the sixteen rounds; IP and FP are read at their entries. -/
theorem transformIsSixteenRoundsBetweenIPAndFP : Obligations.TransformIsSixteenRoundsBetweenIPAndFP := by
  intro block sk d hlen
  refine ⟨halvesAfter sk d (initialHalves (blockVector block)), fun i hi => ⟨?_, ?_⟩, fun r => ?_, ?_⟩
  · rw [halvesAfter_zero, getMsbD_initialHalves_l _ hi, getMsbD_blockVector block hlen _ (IP_entry_lt (by omega))]
  · rw [halvesAfter_zero, getMsbD_initialHalves_r _ hi, getMsbD_blockVector block hlen _ (IP_entry_lt (by omega))]
  · rw [halvesAfter_succ]
    cases d with
    | encrypt | decrypt => exact ⟨rfl, rfl⟩
  · refine ⟨_, transform_of_length hlen sk d, length_blockBytes _, fun i hi => ?_⟩
    rw [getMsbD_bytesToBits_blockBytes _ hi, halvesAfter_sixteen]
    exact getMsbD_permuteBits _ FP i hi

/-! ### The block commands -/

section BlockCommand
variable {i : Instr} {d : Direction} (hi : ∀ s, resultOf i s = blockResult d s)
include hi

/-- A block command under a valid key ends with the transform of the one block of IBUF (rules R151 and R152). -/
theorem exec_blockCommand {s : State} (hkey : ValidKey s.keybuf) (hlen : s.ilen = 8) :
    ∃ out, transform s.ibuf (deriveSubkeys (keyBytes s.keybuf)) d = .ok out ∧ out.length = 8 ∧
      exec i s = .next { s with obuf := out, err := 0 } := by
  obtain ⟨out, hout, htransform⟩ := transform_ok s.ibuf (deriveSubkeys (keyBytes s.keybuf)) d
  have hresult := (hi s).trans (blockResult_of_validKey hkey hlen d)
  exact ⟨out, htransform, hout, exec_of_resultOf_ok (hresult.trans htransform)⟩

/-- A block command under a valid key ends with `MalformedBlock` on an input of another length than 8. -/
theorem exec_blockCommand_of_ilen_ne {s : State} (hkey : ValidKey s.keybuf) (hlen : s.ilen ≠ 8) :
    exec i s = .next { s with obuf := [], err := 6 } := by
  have hblock : blockOperand s = .error .malformedBlock := if_pos hlen
  have hresult : resultOf i s = .error .malformedBlock := by
    simp only [hi, blockResult, keyOperand, validateKey_of_validKey hkey, hblock]
  rw [exec_eq_endCommand, hresult]
  rfl

/-- A block command as the next move, under a valid key and on one block, leaves the transform in OBUF (rule R81). -/
theorem run_succ_of_blockCommand {s : State} {rest : List HostMove} (h : s.moves = mnemonicMove i :: rest)
    (hkey : ValidKey s.keybuf) (hlen : s.ilen = 8) {out : ByteSeq}
    (hout : transform s.ibuf (deriveSubkeys (keyBytes s.keybuf)) d = .ok out) (k : Nat) :
    core.run (k + 1) s = core.run k (completeCommand out { s with moves := rest }) := by
  have hresult := (hi { s with moves := rest }).trans (blockResult_of_validKey hkey hlen d)
  exact run_succ_of_moves h (issue_encodeByte_of_resultOf (hresult.trans hout)) k

/-- A block command, `LOADIN OBUF` and the block command of the other direction return the block (rule R154). -/
theorem run_blockRoundTrip {i' : Instr} (hi' : ∀ s, resultOf i' s = blockResult d.opposite s) {s : State}
    {rest : List HostMove} (hkey : ValidKey s.keybuf) (hlen : s.ilen = 8)
    (h : s.moves = [mnemonicMove i, .loadInObuf, mnemonicMove i'] ++ rest) :
    ∃ t : State, core.run 3 s = .next t ∧ t.err = 0 ∧ t.obuf = s.ibuf ∧ t.keybuf = s.keybuf ∧ t.moves = rest := by
  obtain ⟨c, hc, hthere, hback⟩ := transform_opposite hlen (deriveSubkeys (keyBytes s.keybuf)) d
  have hfirst := run_succ_of_blockCommand hi h hkey hlen hthere 2
  have hload := run_succ_of_moves (s := completeCommand c { s with moves := [.loadInObuf, mnemonicMove i'] ++ rest })
    (m := .loadInObuf) rfl rfl 1
  have hsecond := run_succ_of_blockCommand hi'
    (s := { s with ibuf := c, obuf := c, err := 0, moves := mnemonicMove i' :: rest }) rfl hkey hc hback 0
  exact ⟨_, hfirst.trans (hload.trans hsecond), rfl, rfl, rfl, rfl⟩

end BlockCommand

/-- Settles O22: under a valid key the answer is the transform or the block's error, and otherwise the key's error. -/
theorem encbEncryptsTheBlock : Obligations.EncbEncryptsTheBlock :=
  fun _ => ⟨exec_blockCommand fun _ => rfl, fun h => exec_of_klen_ne h _, fun hlen h => exec_of_not_validKey hlen h _,
    exec_blockCommand_of_ilen_ne (d := .encrypt) fun _ => rfl⟩

/-- Settles O23: the same with the other direction. -/
theorem decbDecryptsTheBlock : Obligations.DecbDecryptsTheBlock :=
  fun _ => ⟨exec_blockCommand fun _ => rfl, fun h => exec_of_klen_ne h _, fun hlen h => exec_of_not_validKey hlen h _,
    exec_blockCommand_of_ilen_ne (d := .decrypt) fun _ => rfl⟩

/-- Settles O44: the two block commands are of opposite directions. -/
theorem blockRoundTrip : Obligations.BlockRoundTrip :=
  fun _ _ hkey hlen => ⟨run_blockRoundTrip (d := .encrypt) (fun _ => rfl) (fun _ => rfl) hkey hlen,
    run_blockRoundTrip (d := .decrypt) (fun _ => rfl) (fun _ => rfl) hkey hlen⟩

end Sys2Proof.Machine
end

section
/-! The ECBProcessor unit (spec file 45_ecb.md): the validation of a key, the blocks of a message, the two message
commands, and the run that encrypts a message and decrypts it again. -/

/-! ### The validation of a key -/
namespace Sys2Proof.Machine

theorem validateKey_of_length_ne {key : List Int} (h : key.length ≠ 8) : validateKey key = .error .invalidKeyLength :=
  if_pos h

theorem validateKey_of_out_of_range {key : List Int} (hlen : key.length = 8) (h : ∃ e ∈ key, e < 0 ∨ 255 < e) :
    validateKey key = .error .invalidKeyValue := by
  obtain ⟨e, he, hout⟩ := h
  rcases validateKey_cases key with ⟨hne, -⟩ | ⟨-, -, herr⟩ | ⟨-, hrange, -⟩
  · exact absurd hlen hne
  · exact herr
  · have hin := hrange e he
    omega

/-- Settles O13: one lemma for each outcome of `validateKey`, and what it raises ends the command. -/
theorem everyCommandValidatesTheKeyFirst : Obligations.EveryCommandValidatesTheKeyFirst :=
  ⟨fun _ => ⟨validateKey_of_length_ne, validateKey_of_out_of_range,
      fun hlen hrange => validateKey_of_validKey ⟨hlen, hrange⟩⟩,
    fun i _ _ h => exec_of_invalid h i⟩

/-! ### The blocks of a message -/

theorem memRead_whole {buf : ByteSeq} {n : Nat} (h : buf.length = n) : memRead buf 0 n = buf := by
  rw [memRead, List.drop_zero, List.take_of_length_le h.le]

/-- Two messages of whole blocks are equal if they agree block by block (rule R54). -/
theorem eq_of_blocks_eq {m m' : ByteSeq} (hm : m.length % 8 = 0) (hlen : m'.length = m.length)
    (h : ∀ b < m.length / 8, memRead m' (8 * b) 8 = memRead m (8 * b) 8) : m' = m := by
  refine List.ext_getElem? fun j => ?_
  by_cases hj : j < m.length
  · have hmod : j % 8 < 8 := Nat.mod_lt j (by decide)
    rw [← Nat.div_add_mod j 8, ← getElem?_memRead m' _ 8 _ hmod, h (j / 8) (by omega), getElem?_memRead m _ 8 _ hmod]
  · rw [List.getElem?_eq_none (by omega), List.getElem?_eq_none (by omega)]

/-- A message of whole blocks is transformed in place, block by block (rules R55 and R65). -/
theorem transformBlocks_splitBlocks_ok {m : ByteSeq} (hm : m.length % 8 = 0) (sk : Subkeys) (d : Direction) :
    ∃ out, transformBlocks sk d (splitBlocks m) = .ok out ∧ out.length = m.length ∧
      ∀ b < m.length / 8, transform (memRead m (8 * b) 8) sk d = .ok (memRead out (8 * b) 8) := by
  obtain ⟨out, hout, -, hblocks⟩ := transformBlocks_ok sk d (splitBlocks m)
  refine ⟨out, hout, length_of_transformBlocks_splitBlocks hm hout, fun b hb => ?_⟩
  rw [← hblocks b (by rwa [length_splitBlocks]), getElem_splitBlocks]

/-- The other direction gives a message of whole blocks back, since it gives every block back (rule R154). -/
theorem transformBlocks_opposite {sk : Subkeys} {d : Direction} {m : ByteSeq} (hm : m.length % 8 = 0) :
    ∃ c, transformBlocks sk d (splitBlocks m) = .ok c ∧ c.length = m.length ∧
      transformBlocks sk d.opposite (splitBlocks c) = .ok m := by
  obtain ⟨c, hc, hclen, hthere⟩ := transformBlocks_splitBlocks_ok hm sk d
  obtain ⟨p, hp, hplen, hback⟩ := transformBlocks_splitBlocks_ok (m := c) (by omega) sk d.opposite
  have heq : p = m := by
    refine eq_of_blocks_eq hm (hplen.trans hclen) fun b hb => ?_
    obtain ⟨c', -, hc', hopp⟩ := transform_opposite (length_memRead (show 8 * b + 8 ≤ m.length by omega)) sk d
    cases hc'.symm.trans (hthere b hb)
    exact Except.ok.inj ((hback b (by omega)).symm.trans hopp)
  exact ⟨c, hc, hclen, heq ▸ hp⟩

/-- The padded text is whole blocks, one more than the text has (rules R92 and R95). -/
theorem textToBytes_whole_blocks (text : ByteSeq) :
    (textToBytes text).length % 8 = 0 ∧ (textToBytes text).length / 8 = text.length / 8 + 1 := by
  rw [length_textToBytes]
  exact padLength_mod text.length

/-- After the whole blocks of a text of 8k characters the padding is one block of zero bytes (rules R92 and R173). -/
theorem memRead_textToBytes_last {text : ByteSeq} (h : text.length % 8 = 0) :
    memRead (textToBytes text) text.length 8 = List.replicate 8 0 := by
  rw [memRead, textToBytes, List.drop_left, padLength, h]
  rfl

/-- Unpadding drops just the zero bytes (rule R93). -/
theorem length_filter_ne_zero (bytes : ByteSeq) : (bytes.filter (· ≠ 0)).length = bytes.length - bytes.count 0 := by
  have hsum := List.length_eq_length_filter_add (l := bytes) (· == 0)
  have hne : bytes.filter (· ≠ 0) = bytes.filter (!· == 0) := List.filter_congr fun _ _ => decide_not
  rw [← List.countP_eq_length_filter, ← List.count] at hsum
  rw [hne]
  omega

/-! ### The message commands -/

theorem resultOf_encm_of_validKey {s : State} (h : ValidKey s.keybuf) : resultOf .encm s =
    transformBlocks (deriveSubkeys (keyBytes s.keybuf)) .encrypt (splitBlocks (textToBytes s.ibuf)) := by
  simp only [resultOf_encm, encryptMessage, validateKey_of_validKey h]

theorem resultOf_decm_of_validKey {s : State} (h : ValidKey s.keybuf) (hlen : s.ilen % 8 = 0) {p : ByteSeq}
    (hp : transformBlocks (deriveSubkeys (keyBytes s.keybuf)) .decrypt (splitBlocks s.ibuf) = .ok p) :
    resultOf .decm s = .ok (p.filter (· ≠ 0)) := by
  rw [State.ilen] at hlen
  simp only [resultOf_decm, decryptMessage, validateKey_of_validKey h, hlen, hp, bytesToText, ne_eq, not_true_eq_false,
    if_false]

/-- Under a valid key DECM ends with `MalformedCiphertext` on an input that is not whole blocks (rule R168). -/
theorem exec_decm_of_partial_block {s : State} (h : ValidKey s.keybuf) (hlen : s.ilen % 8 ≠ 0) :
    exec .decm s = .next { s with obuf := [], err := 3 } := by
  have hresult : resultOf .decm s = .error .malformedCiphertext := by
    rw [State.ilen] at hlen
    simp only [resultOf_decm, decryptMessage, validateKey_of_validKey h, hlen, ne_eq, not_false_eq_true, if_true]
  rw [exec_eq_endCommand, hresult]
  rfl

/-- ENCM under a valid key transforms every block of the padded text (rules R166 and R167). -/
theorem exec_encm_of_validKey {s : State} (hkey : ValidKey s.keybuf) :
    ∃ out, exec .encm s = .next { s with obuf := out, err := 0 } ∧ out.length = s.ilen + 8 - s.ilen % 8 ∧
      ∀ b, b < s.ilen / 8 + 1 →
        transform (memRead (textToBytes s.ibuf) (8 * b) 8) (deriveSubkeys (keyBytes s.keybuf)) .encrypt
          = .ok (memRead out (8 * b) 8) := by
  obtain ⟨hmod, hdiv⟩ := textToBytes_whole_blocks s.ibuf
  obtain ⟨out, hout, hlen, hblocks⟩ := transformBlocks_splitBlocks_ok hmod (deriveSubkeys (keyBytes s.keybuf)) .encrypt
  rw [hdiv] at hblocks
  refine ⟨out, exec_of_resultOf_ok ((resultOf_encm_of_validKey hkey).trans hout), ?_, hblocks⟩
  rw [State.ilen]
  omega

/-- DECM under a valid key transforms every block and drops the zero bytes (rules R168 and R169). -/
theorem exec_decm_of_validKey {s : State} (hkey : ValidKey s.keybuf) (hlen : s.ilen % 8 = 0) :
    ∃ p : ByteSeq, p.length = s.ilen ∧
      (∀ b, b < s.ilen / 8 → transform (memRead s.ibuf (8 * b) 8) (deriveSubkeys (keyBytes s.keybuf)) .decrypt
        = .ok (memRead p (8 * b) 8)) ∧
      exec .decm s = .next { s with obuf := p.filter (· ≠ 0), err := 0 } := by
  obtain ⟨p, hp, hplen, hblocks⟩ := transformBlocks_splitBlocks_ok hlen (deriveSubkeys (keyBytes s.keybuf)) .decrypt
  exact ⟨p, hplen, hblocks, exec_of_resultOf_ok (resultOf_decm_of_validKey hkey hlen hp)⟩

/-- Settles O24: under a valid key the padded text's blocks are transformed, and otherwise the key's error. -/
theorem encmEncryptsEveryPaddedBlock : Obligations.EncmEncryptsEveryPaddedBlock :=
  fun _ => ⟨exec_encm_of_validKey, fun h => exec_of_klen_ne h _, fun hlen h => exec_of_not_validKey hlen h _⟩

/-- Settles O25: under a valid key the blocks are transformed or the input's length is the error, and otherwise the
key's error. -/
theorem decmDropsEveryZeroByte : Obligations.DecmDropsEveryZeroByte := by
  intro s
  refine ⟨fun hkey hlen => ?_, fun h => exec_of_klen_ne h _, fun hlen h => exec_of_not_validKey hlen h _,
    exec_decm_of_partial_block⟩
  obtain ⟨p, hplen, hblocks, hexec⟩ := exec_decm_of_validKey hkey hlen
  refine ⟨p, hplen, hblocks, hexec, ?_, fun x hx => ?_⟩
  · rw [length_filter_ne_zero, hplen]
  · exact of_decide_eq_true (List.mem_filter.1 hx).2

/-- Settles O48: `transform` is a function of the block, and the last block of a text of 8k characters is the one block
of the padded empty text. -/
theorem equalBlocksEncryptEqually : Obligations.EqualBlocksEncryptEqually := by
  intro s s' hkey hsame
  obtain ⟨out, hexec, -, hblocks⟩ := exec_encm_of_validKey hkey
  obtain ⟨out', hexec', hlen', hblocks'⟩ := exec_encm_of_validKey (hsame ▸ hkey)
  rw [← hsame] at hblocks'
  have hequal : ∀ a b, a < s.ilen / 8 + 1 → b < s'.ilen / 8 + 1 →
      memRead (textToBytes s.ibuf) (8 * a) 8 = memRead (textToBytes s'.ibuf) (8 * b) 8 →
      memRead out (8 * a) 8 = memRead out' (8 * b) 8 := by
    intro a b ha hb hab
    exact Except.ok.inj ((hblocks a ha).symm.trans (hab ▸ hblocks' b hb))
  refine ⟨_, _, hexec, hexec', hequal, fun hlen hempty => ?_⟩
  have hlast : 8 * (s.ilen / 8) = s.ilen := by omega
  have hpad : memRead (textToBytes s.ibuf) (8 * (s.ilen / 8)) 8 = memRead (textToBytes s'.ibuf) (8 * 0) 8 := by
    rw [hlast, hempty]
    exact memRead_textToBytes_last hlen
  have hread := hequal (s.ilen / 8) 0 (by omega) (by omega) hpad
  have hone : out'.length = 8 := by rw [hlen', State.ilen, hempty]; rfl
  rwa [hlast, Nat.mul_zero, memRead_whole hone] at hread

/-! ### A message there and back -/

/-- A mnemonic as the next move leaves what its command's rule answers in OBUF, and the run goes on (rules R76, R81). -/
theorem run_succ_of_mnemonicMove {s : State} {i : Instr} {rest : List HostMove} (h : s.moves = mnemonicMove i :: rest)
    {out : ByteSeq} (hr : resultOf i s = .ok out) (k : Nat) :
    core.run (k + 1) s = core.run k { s with obuf := out, err := 0, moves := rest } := by
  have hmoved : resultOf i { s with moves := rest } = .ok out := (resultOf_congr i _ s rfl rfl).trans hr
  exact run_succ_of_moves h (issue_encodeByte_of_resultOf hmoved) k

/-- ENCM, `LOADIN OBUF` and DECM under a valid key: the blocks of the padded text are transformed, and transformed
back, so that unpadding leaves the text without its zero characters (rule R171). -/
theorem run_messageRoundTrip {s : State} {rest : List HostMove} (hkey : ValidKey s.keybuf)
    (h : s.moves = [mnemonicMove .encm, .loadInObuf, mnemonicMove .decm] ++ rest) :
    ∃ c, resultOf .encm s = .ok c ∧ c.length = 8 * (s.ilen / 8 + 1) ∧
      core.run 1 s = .next { s with obuf := c, err := 0, moves := [.loadInObuf, mnemonicMove .decm] ++ rest } ∧
      core.run 3 s = .next { s with ibuf := c, obuf := s.ibuf.filter (· ≠ 0), err := 0, moves := rest } := by
  obtain ⟨hmod, hdiv⟩ := textToBytes_whole_blocks s.ibuf
  obtain ⟨c, hc, hclen, hback⟩ :=
    transformBlocks_opposite (sk := deriveSubkeys (keyBytes s.keybuf)) (d := .encrypt) hmod
  have hencm := (resultOf_encm_of_validKey hkey).trans hc
  have hload := run_succ_of_moves
    (s := { s with obuf := c, err := 0, moves := [.loadInObuf, mnemonicMove .decm] ++ rest }) rfl rfl 1
  have hdecm := resultOf_decm_of_validKey
    (s := { s with ibuf := c, obuf := c, err := 0, moves := mnemonicMove .decm :: rest }) hkey
    (show c.length % 8 = 0 by omega) hback
  rw [← bytesToText, bytesToText_textToBytes] at hdecm
  refine ⟨c, hencm, ?_, run_succ_of_mnemonicMove h hencm 0, ?_⟩
  · rw [State.ilen]
    omega
  · exact (run_succ_of_mnemonicMove h hencm 2).trans (hload.trans (run_succ_of_mnemonicMove rfl hdecm 0))

/-- Settles O43: what the run leaves, and a text without zero characters loses none. -/
theorem messageRoundTrip : Obligations.MessageRoundTrip := by
  intro s rest hkey h
  obtain ⟨c, -, -, -, hrun⟩ := run_messageRoundTrip hkey h
  exact ⟨_, hrun, rfl, rfl, rfl, rfl, fun hne => List.filter_eq_self.2 fun c hc => decide_eq_true (hne c hc)⟩

/-- Settles O46: the padded text's length, and the text's without its zero characters. -/
theorem messageLengthLaws : Obligations.MessageLengthLaws := by
  intro s rest hkey h
  obtain ⟨c, -, hlen, hone, hthree⟩ := run_messageRoundTrip hkey h
  exact ⟨⟨_, hone, hlen⟩, ⟨_, hthree, length_filter_ne_zero s.ibuf⟩⟩

/-- ENCM on the empty text answers the transform of eight zero bytes (rule R172). -/
theorem resultOf_encm_of_empty {s : State} (hkey : ValidKey s.keybuf) (hempty : s.ibuf = []) : resultOf .encm s =
    transform (List.replicate 8 0) (deriveSubkeys (keyBytes s.keybuf)) .encrypt := by
  have hpad : splitBlocks (textToBytes []) = [List.replicate 8 0] := by decide
  obtain ⟨c, -, hc⟩ := transform_ok (List.replicate 8 0) (deriveSubkeys (keyBytes s.keybuf)) .encrypt
  rw [resultOf_encm_of_validKey hkey, hempty, hpad, hc]
  simp only [transformBlocks, hc, List.append_nil]

/-- Settles O47: the run on the empty text, whose padded text is the one block of eight zero bytes. -/
theorem emptyTextIsOneBlock : Obligations.EmptyTextIsOneBlock := by
  intro s rest hkey hempty h
  obtain ⟨c, hc, hlen, hone, hthree⟩ := run_messageRoundTrip hkey h
  rw [State.ilen, hempty] at hlen
  rw [resultOf_encm_of_empty hkey hempty] at hc
  exact ⟨⟨_, hone, rfl, hlen, hc⟩, ⟨_, hthree, rfl, congrArg (List.filter _) hempty⟩⟩

end Sys2Proof.Machine
end

section
/-! Exceptions (spec file 60_exceptions.md): the two ends of an issued byte and the invariant they keep, the kinds each
command can end with, and the test that decides ERR. -/

/-! ### The interface invariant -/
namespace Sys2Proof.Machine

/-- An issued byte ends with the bytes its rule returned, or with a kind, which is not `MalformedBitLength` (rules R76,
R187 and R191). -/
theorem issue_ends (c : Byte) (s : State) : (∃ out, issue c s = .next (completeCommand out s)) ∨
    ∃ k, k ≠ .malformedBitLength ∧ issue c s = .next (raiseError k s) := by
  cases hd : decodeByte c with
  | ok i =>
    rw [issue_of_decode hd, exec_eq_endCommand]
    cases hr : resultOf i s with
    | ok out => exact .inl ⟨out, rfl⟩
    | error k => exact .inr ⟨k, fun hk => resultOf_ne_malformedBitLength i s (hk ▸ hr), rfl⟩
  | error r => exact .inr ⟨.illegalCommand, nofun, issue_of_reserved ((reservedByte_iff c).2 ⟨r, hd⟩) s⟩

theorem inv_completeCommand (out : ByteSeq) (s : State) : State.Inv (completeCommand out s) :=
  ⟨.inl rfl, fun h => (h rfl).elim⟩

theorem inv_raiseError {k : ErrorKind} (hk : k ≠ .malformedBitLength) (s : State) : State.Inv (raiseError k s) := by
  refine ⟨?_, fun _ => rfl⟩
  rw [raiseError_err]
  cases k with
  | malformedBitLength => exact absurd rfl hk
  | _ => decide

/-- Every host move keeps the invariant: the host writes no ERR and no OBUF of its own, except by reset. -/
theorem hostMove_keeps_inv {m : HostMove} {s t : State} (hs : State.Inv s) (h : hostMove m s = .next t) :
    State.Inv t := by
  cases m with
  | issue c =>
    rcases issue_ends c s with ⟨out, hnext⟩ | ⟨k, hk, hnext⟩
    · cases hnext.symm.trans h
      exact inv_completeCommand out s
    · cases hnext.symm.trans h
      exact inv_raiseError hk s
  | reset =>
    cases h
    exact interfaceInvariantAtReset
  | loadKey elems | loadIn bytes | loadInObuf | read r =>
    cases h
    exact hs

/-- Settles O54: a step is no move or one host move, and the moves still to come are no part of the invariant. -/
theorem interfaceInvariantKept : Obligations.InterfaceInvariantKept := by
  intro s t hs h
  cases hmoves : s.moves with
  | nil =>
    cases (step_of_no_moves hmoves).symm.trans h
    exact hs
  | cons m rest => exact hostMove_keeps_inv (s := { s with moves := rest }) hs ((step_of_moves hmoves).symm.trans h)

/-! ### The kinds each command can end with -/

/-- The codes 7 to 255 are no kind's (rule R185). -/
theorem ErrorKind.toNat_code_le (k : ErrorKind) : k.code.toNat ≤ 6 := by
  cases k <;> decide

/-- Settles O17: the kinds a rule can raise, and the codes, from which the host reads the kinds back. -/
theorem errorKindsPerCommand : Obligations.ErrorKindsPerCommand :=
  ⟨fun _ _ _ => kind_of_resultOf_error, fun k => ⟨kindOfCode_code k, k.code_ne_zero, k.toNat_code_le⟩⟩

/-! ### The first failing test -/

/-- On eight elements validation fails just at an element outside [0,255] (rule R165). -/
theorem not_validKey_iff {key : List Int} (hlen : key.length = 8) :
    ¬ ValidKey key ↔ ∃ e ∈ key, e < 0 ∨ 255 < e := by
  simp only [ValidKey, hlen, true_and, not_forall, exists_prop, not_and_or, not_le]

/-- A block command under a valid key has one test left, that IBUF is one block (rules R151 and R152). -/
theorem exec_blockCommand_err {i : Instr} {d : Direction} (hi : ∀ s, resultOf i s = blockResult d s) {s : State}
    (hkey : ValidKey s.keybuf) : ∃ t, exec i s = .next t ∧ t.err = if s.ilen ≠ 8 then 6 else 0 := by
  by_cases hlen : s.ilen = 8
  · obtain ⟨out, -, -, hexec⟩ := exec_blockCommand hi hkey hlen
    exact ⟨_, hexec, (if_neg (not_not.2 hlen)).symm⟩
  · exact ⟨_, exec_blockCommand_of_ilen_ne hi hkey hlen, (if_pos hlen).symm⟩

/-- The tests after the key's: under a valid key only the length of the input is left to fail, the whole blocks of
DECM or the one block of ENCB and DECB (rule R188). -/
theorem exec_err_of_validKey {s : State} (hkey : ValidKey s.keybuf) (i : Instr) : ∃ t, exec i s = .next t ∧
    t.err = if i = .decm ∧ s.ilen % 8 ≠ 0 then 3 else if (i = .encb ∨ i = .decb) ∧ s.ilen ≠ 8 then 6 else 0 := by
  cases i with
  | ksch =>
    obtain ⟨out, hexec, -⟩ := (kschOutputsTheSubkeys s).1 hkey
    exact ⟨_, hexec, rfl⟩
  | encb => simpa using exec_blockCommand_err (i := .encb) (d := .encrypt) (fun _ => rfl) hkey
  | decb => simpa using exec_blockCommand_err (i := .decb) (d := .decrypt) (fun _ => rfl) hkey
  | encm =>
    obtain ⟨out, hexec, -⟩ := exec_encm_of_validKey hkey
    exact ⟨_, hexec, rfl⟩
  | decm =>
    by_cases hlen : s.ilen % 8 = 0
    · obtain ⟨p, -, -, hexec⟩ := exec_decm_of_validKey hkey hlen
      exact ⟨_, hexec, by simp [hlen]⟩
    · exact ⟨_, exec_decm_of_partial_block hkey hlen, by simp [hlen]⟩

/-- The tests of a command in their order: the key's length, the key's elements, the input's length (rule R188). -/
theorem exec_err (i : Instr) (s : State) : ∃ t, exec i s = .next t ∧
    t.err = if s.klen ≠ 8 then 1 else if ∃ e ∈ s.keybuf, e < 0 ∨ 255 < e then 2
      else if i = .decm ∧ s.ilen % 8 ≠ 0 then 3 else if (i = .encb ∨ i = .decb) ∧ s.ilen ≠ 8 then 6 else 0 := by
  by_cases hlen : s.klen = 8
  · rw [if_neg (not_not.2 hlen)]
    by_cases hkey : ValidKey s.keybuf
    · rw [if_neg (mt (not_validKey_iff hlen).2 (not_not.2 hkey))]
      exact exec_err_of_validKey hkey i
    · rw [if_pos ((not_validKey_iff hlen).1 hkey)]
      exact ⟨_, exec_of_not_validKey hlen hkey i, rfl⟩
  · rw [if_pos hlen]
    exact ⟨_, exec_of_klen_ne hlen i, rfl⟩

theorem encodeByte_injective : Function.Injective encodeByte := fun i j h =>
  Except.ok.inj ((decodeByte_encodeByte i).symm.trans (h ▸ decodeByte_encodeByte j))

/-- The five bytes of rule R71 are the bytes of the commands. -/
theorem mem_commandBytes_iff (c : Byte) :
    c ∈ ([0x02, 0x04, 0x05, 0x06, 0x07] : List Byte) ↔ ∃ i, c = encodeByte i := by
  have hbytes : ([0x02, 0x04, 0x05, 0x06, 0x07] : List Byte) =
      [Instr.ksch, .encb, .decb, .encm, .decm].map encodeByte := rfl
  rw [hbytes, List.mem_map]
  constructor
  · rintro ⟨i, -, rfl⟩
    exact ⟨i, rfl⟩
  · rintro ⟨i, rfl⟩
    exact ⟨i, by cases i <;> decide, rfl⟩

/-- Settles O14: a byte is no command's, or one command's, whose tests come in their order. -/
theorem firstFailingTestDecidesErr : Obligations.FirstFailingTestDecidesErr := by
  intro c s
  by_cases hc : c ∈ ([0x02, 0x04, 0x05, 0x06, 0x07] : List Byte)
  · rw [if_neg (not_not.2 hc)]
    obtain ⟨i, rfl⟩ := (mem_commandBytes_iff c).1 hc
    have hdecm : encodeByte i = 0x07 ↔ i = .decm := encodeByte_injective.eq_iff (b := .decm)
    have hencb : encodeByte i = 0x04 ↔ i = .encb := encodeByte_injective.eq_iff (b := .encb)
    have hdecb : encodeByte i = 0x05 ↔ i = .decb := encodeByte_injective.eq_iff (b := .decb)
    simp only [issue_encodeByte, hdecm, hencb, hdecb]
    exact exec_err i s
  · have hno : ∀ i, c ≠ encodeByte i := fun i hi => hc ((mem_commandBytes_iff c).2 ⟨i, hi⟩)
    exact ⟨_, issue_of_ne_encodeByte hno s, (if_pos hc).symm⟩

end Sys2Proof.Machine
end
